-- ==== Sys2Proof/Word.lean ====
section
/-! DEFINITION. The words, levels and lines of the block (spec/00_scope.md R7 to R10, spec/10_state.md R30). -/

namespace Sys2Proof

/-- A byte of the wire, or a stored colour (R9, R22). Bit 7 is the most significant. -/
abbrev Byte := BitVec 8

/-- A brightness word, 0 to 31 (R13, R23). -/
abbrev Bright := BitVec 5

/-- A numeric operand field of the command word (R76, R78). -/
abbrev Field := BitVec 32

/-- A command word (R76). -/
abbrev CmdWord := BitVec 144

/-- The level of a line: LOW = 0, HIGH = 1 (R8). -/
inductive Level where
  | low
  | high
  deriving DecidableEq, Repr, Inhabited

/-- The two lines of the port (R8, R30). -/
inductive Line where
  | clk
  | dat
  deriving DecidableEq, Repr

/-- HIGH for a bit that is 1, LOW for a bit that is 0 (spec/41_transmit.md R136). -/
def Level.ofBool (b : Bool) : Level :=
  if b then .high else .low

end Sys2Proof
end

