-- ==== Sys2Proof/Config.lean ====
section
/-! DEFINITION. The implementation parameters of spec/00_scope.md R7, and the values the spec leaves open. -/

namespace Sys2Proof.Config

/-- NUM_PIXELS: the count of pixel slots. The spec gives meaning to 8 alone (spec/41_transmit.md R145), so it is a
constant here and no other value can be chosen. -/
abbrev numPixels : Nat := 8

/-- PULSES_PER_BYTE: tied to the pixel count, not to the number 8 (spec/41_transmit.md R135). -/
abbrev pulsesPerByte : Nat := numPixels

/-- START_BYTES: how many bytes the start frame has (R72). -/
abbrev startBytes : Nat := 4

/-- The byte of the start frame (R72). -/
def startByte : Byte := 0x00#8

/-- How many bytes a pixel frame has (R73). -/
abbrev bytesPerPixel : Nat := 4

/-- END_BYTES: how many bytes the end frame has (R74). -/
abbrev endBytes : Nat := 1

/-- The byte of the end frame (R74). -/
def endByte : Byte := 0xFF#8

/-- FRAME_BYTES = 4 + 4·N + 1 (R7). -/
abbrev frameBytes : Nat := startBytes + bytesPerPixel * numPixels + endBytes

/-- PIXEL_HEADER: the constant OR-ed with the brightness word (R7, R133). -/
def pixelHeader : Byte := 0xE0#8

/-- BRIGHT_SCALE: the multiplier of the brightness fraction (R7, R102). -/
abbrev brightScale : Int := 31

/-- The modulus of a stored colour, 2 to the COLOUR_BITS (R7, R101). -/
abbrev colourModulus : Int := 256

/-- The modulus of a stored brightness, 2 to the BRIGHT_BITS (R7, R102). -/
abbrev brightModulus : Int := 32

/-- BRIGHT_DEFAULT: the brightness of a slot first written with no brightness operand (R7). -/
def brightDefault : Bright := 31#5

/-- One channel of COLOUR_DEFAULT, white (R7). -/
def colourDefault : Byte := 255#8

/-- 2 to the NUM_FRAC_BITS: the units of a Q16.16 field in the number 1 (R7, R78). -/
abbrev fracUnit : Nat := 65536

/-- CLOCK_PIN in the reference deployment: opaque to every rule (spec/10_state.md R31). -/
def clockPin : Nat := 24

/-- DATA_PIN in the reference deployment: opaque to every rule (spec/10_state.md R31). -/
def dataPin : Nat := 23

/-- CLK_RESET: the spec's OPEN parameter in LOW, HIGH (spec/10_state.md R34, D14). It has no body, so nothing can be
proved of its value. Log entry 3. -/
opaque clkReset : Level

/-- DAT_RESET: the spec's OPEN parameter in LOW, HIGH (spec/10_state.md R34, D14). Log entry 3. -/
opaque datReset : Level

/-- MIN_EVENT_GAP: the spec's OPEN parameter of a realisation; no rule depends on it and the model has no time
(spec/70_reset_and_hazards.md R195, D18). Log entry 16. -/
opaque minEventGap : Nat

/-- FREE VALUE (spec/93_implementation_defined.md U4): whether a port write that did not answer `done` put its level
on the line all the same, for the n-th such write. It has no body. Log entries 5 and 6. -/
opaque failedWriteLands : Nat → Bool

end Sys2Proof.Config
end

