-- ==== Sys2Proof/Syntax.lean ====
section
/-! DEFINITION. The rows of spec/opcode_table.json: eight abstract operations (spec/30_encoding.md R80) and three
wire frames (R72 to R74). -/

namespace Sys2Proof

/-- An abstract operation has an integer index and rational operands (spec/00_scope.md R11, R12); a wire frame has the
bits of its pattern. Not every abstract operation fits a command word: see `Instr.wellFormed`. -/
inductive Instr where
  /-- INIT, `initialize()` (R104). -/
  | init
  /-- SETPIX, `setPixel(index, r, g, b)` (R105). -/
  | setpix (i : Int) (r g b : Rat)
  /-- SETPIXA, `setPixel(index, r, g, b, brightness)` (R106). -/
  | setpixa (i : Int) (r g b a : Rat)
  /-- SETALL, `setAllPixels(r, g, b)` (R107). -/
  | setall (r g b : Rat)
  /-- SETALLA, `setAllPixels(r, g, b, brightness)` (R108). -/
  | setalla (r g b a : Rat)
  /-- SETBRT, `setBrightness(index, brightness)` (R109). -/
  | setbrt (i : Int) (a : Rat)
  /-- CLEAR, `clearAll()` (R110). -/
  | clear
  /-- XMIT, `transmit()` (R130). -/
  | xmit
  /-- WIRE.START, 32 zero bits (R72). -/
  | wireStart
  /-- WIRE.PIXEL, the 32 bits 111 br b g r (R73). -/
  | wirePixel (br : Bright) (b g r : Byte)
  /-- WIRE.END, the byte 0xFF (R74). -/
  | wireEnd
  deriving DecidableEq, Repr

/-- The mnemonic of spec/opcode_table.json. -/
def Instr.mnemonic : Instr → String
  | .init => "INIT"
  | .setpix _ _ _ _ => "SETPIX"
  | .setpixa _ _ _ _ _ => "SETPIXA"
  | .setall _ _ _ => "SETALL"
  | .setalla _ _ _ _ => "SETALLA"
  | .setbrt _ _ => "SETBRT"
  | .clear => "CLEAR"
  | .xmit => "XMIT"
  | .wireStart => "WIRE.START"
  | .wirePixel _ _ _ _ => "WIRE.PIXEL"
  | .wireEnd => "WIRE.END"

/-- The index operand, where the operation has one (R77). -/
def Instr.indices : Instr → List Int
  | .setpix i _ _ _ => [i]
  | .setpixa i _ _ _ _ => [i]
  | .setbrt i _ => [i]
  | .init | .setall _ _ _ | .setalla _ _ _ _ | .clear | .xmit => []
  | .wireStart | .wirePixel _ _ _ _ | .wireEnd => []

/-- The numeric operands, in the order of the call (R77). -/
def Instr.numbers : Instr → List Rat
  | .setpix _ r g b => [r, g, b]
  | .setpixa _ r g b a => [r, g, b, a]
  | .setall r g b => [r, g, b]
  | .setalla r g b a => [r, g, b, a]
  | .setbrt _ a => [a]
  | .init | .clear | .xmit => []
  | .wireStart | .wirePixel _ _ _ _ | .wireEnd => []

/-- Whether the row is a command (R76) and not a wire frame. -/
def Instr.isCommand : Instr → Bool
  | .init | .setpix _ _ _ _ | .setpixa _ _ _ _ _ | .setall _ _ _ | .setalla _ _ _ _ => true
  | .setbrt _ _ | .clear | .xmit => true
  | .wireStart | .wirePixel _ _ _ _ | .wireEnd => false

/-- Whether the row is one of the seven commands that write the pixel store (spec/40_pixel_store_ops.md R100). -/
def Instr.isStoreCommand : Instr → Bool
  | .init | .setpix _ _ _ _ | .setpixa _ _ _ _ _ | .setall _ _ _ | .setalla _ _ _ _ => true
  | .setbrt _ _ | .clear => true
  | .xmit | .wireStart | .wirePixel _ _ _ _ | .wireEnd => false

end Sys2Proof
end

