-- ==== Sys2Proof/WellFormed.lean ====
section
/-! DEFINITION. Which abstract operations a command word can carry (spec/30_encoding.md R78, R79). What is not
representable there (spec/93_implementation_defined.md U7, U15) is refused here. -/

namespace Sys2Proof

/-- The index field holds 0 to 255 (R79). -/
def indexFits (i : Int) : Bool :=
  decide (0 ≤ i ∧ i ≤ 255)

/-- `v` is the value of some Q16.16 field: a multiple of 1/65536 from -32768 to 32767 + 65535/65536 (R78). -/
def numberFits (v : Rat) : Bool :=
  decide (v.num * Config.fracUnit % v.den = 0 ∧ -2147483648 ≤ v.num * Config.fracUnit / v.den
    ∧ v.num * Config.fracUnit / v.den < 2147483648)

/-- The operation is the meaning of some command word, or is a wire frame. -/
def Instr.wellFormed (i : Instr) : Bool :=
  i.indices.all indexFits && i.numbers.all numberFits

end Sys2Proof
end

