-- ==== Sys2Proof/Decode.lean ====
section
/-! DEFINITION. Decoding and encoding of command words and wire frames (spec/30_encoding.md R70 to R87). -/

namespace Sys2Proof

/-- What the decoder answers: an abstract operation, or Illegal with the opcode byte (R80, R81). -/
inductive Decoded where
  | op (i : Instr)
  | illegal (opcode : Byte)
  deriving DecidableEq, Repr

/-- The bits of a row: a 144-bit command word, or a wire frame of 32 or 8 bits (R72 to R76). -/
inductive Encoded where
  | command (w : CmdWord)
  | wire32 (w : BitVec 32)
  | wire8 (w : BitVec 8)
  deriving DecidableEq, Repr

/-! ## The fields of the command word (R76) -/

/-- `op`, bits [7:0]. -/
def opField (w : CmdWord) : Byte := w.extractLsb' 0 8

/-- `idx`, bits [15:8]. -/
def idxField (w : CmdWord) : Byte := w.extractLsb' 8 8

/-- `R`, bits [47:16]. -/
def redField (w : CmdWord) : Field := w.extractLsb' 16 32

/-- `G`, bits [79:48]. -/
def greenField (w : CmdWord) : Field := w.extractLsb' 48 32

/-- `B`, bits [111:80]. -/
def blueField (w : CmdWord) : Field := w.extractLsb' 80 32

/-- `A`, bits [143:112]. -/
def brightField (w : CmdWord) : Field := w.extractLsb' 112 32

/-- `val(F) = sext_32(F) / 65536` (R78). -/
def fieldValue (f : Field) : Rat :=
  mkRat f.toInt Config.fracUnit

/-- The index operand is `zext(idx)` (R79). -/
def indexValue (f : Byte) : Int :=
  (f.toNat : Int)

/-! ## Decoding -/

/-- `decode` of R80: total, by the opcode byte alone; the fields an operation does not use are ignored (R82). -/
def decode (w : CmdWord) : Decoded :=
  match (opField w).toNat with
  | 0x01 => .op .init
  | 0x02 => .op (.setpix (indexValue (idxField w)) (fieldValue (redField w)) (fieldValue (greenField w))
      (fieldValue (blueField w)))
  | 0x03 => .op (.setpixa (indexValue (idxField w)) (fieldValue (redField w)) (fieldValue (greenField w))
      (fieldValue (blueField w)) (fieldValue (brightField w)))
  | 0x04 => .op (.setall (fieldValue (redField w)) (fieldValue (greenField w)) (fieldValue (blueField w)))
  | 0x05 => .op (.setalla (fieldValue (redField w)) (fieldValue (greenField w)) (fieldValue (blueField w))
      (fieldValue (brightField w)))
  | 0x06 => .op (.setbrt (indexValue (idxField w)) (fieldValue (brightField w)))
  | 0x07 => .op .clear
  | 0x08 => .op .xmit
  | _ => .illegal (opField w)

/-- A wire frame of 32 bits: 32 zeros are the start frame (R72), the pattern 111aaaaabbbbbbbbggggggggrrrrrrrr is a pixel
frame (R73), and nothing else is a frame. -/
def decodeWire32 (w : BitVec 32) : Option Instr :=
  if w = 0#32 then some .wireStart
  else if w.extractLsb' 29 3 = 7#3 then
    some (.wirePixel (w.extractLsb' 24 5) (w.extractLsb' 16 8) (w.extractLsb' 8 8) (w.extractLsb' 0 8))
  else none

/-- A wire frame of 8 bits: 0xFF is the end frame (R74), and nothing else is a frame. -/
def decodeWire8 (w : BitVec 8) : Option Instr :=
  if w = Config.endByte then some .wireEnd else none

/-- The operation an answer of the decoder holds, if it holds one. -/
def Decoded.toOption : Decoded → Option Instr
  | .op i => some i
  | .illegal _ => none

/-- The row that encoded bits stand for. -/
def decodeEncoded : Encoded → Option Instr
  | .command w => (decode w).toOption
  | .wire32 w => decodeWire32 w
  | .wire8 w => decodeWire8 w

/-- The row read from `nbits` bits numbered as spec/opcode_table.json numbers them. A width of 8 or 32 that matches a wire
frame is that frame; all else is a command word whose bits above `nbits` are 0 (log entry 14). -/
def decodeTableWord (nbits w : Nat) : Option Instr :=
  let frame : Option Instr :=
    if nbits = 32 then decodeWire32 (BitVec.ofNat 32 w)
    else if nbits = 8 then decodeWire8 (BitVec.ofNat 8 w)
    else none
  match frame with
  | some i => some i
  | none => if nbits ≤ 144 then (decode (BitVec.ofNat 144 (w % 2 ^ nbits))).toOption else none

/-! ## Encoding -/

/-- `round_half_even(n / d)` for `d > 0` (R87). -/
def roundHalfEven (n : Int) (d : Nat) : Int :=
  let q := n / d
  let r := n % d
  if 2 * r < d then q
  else if (d : Int) < 2 * r then q + 1
  else if q % 2 = 0 then q else q + 1

/-- `n = round_half_even(v * 65536)` (R87): the signed content of the field that stands for `v`. -/
def fieldUnits (v : Rat) : Int :=
  roundHalfEven (v.num * Config.fracUnit) v.den

/-- The field written for `v`, `n mod 2^32` (R87). -/
def fieldOf (v : Rat) : Field :=
  BitVec.ofInt 32 (fieldUnits v)

/-- The fields of R76 put together, in the order A B G R idx op of R86. -/
def packCommand (op idx : Byte) (r g b a : Field) : CmdWord :=
  a ++ b ++ g ++ r ++ idx ++ op

/-- The 32 bits of a pixel frame, 111 br b g r, the first on the wire the most significant (R73). -/
def pixelWord (br : Bright) (b g r : Byte) : BitVec 32 :=
  7#3 ++ br ++ b ++ g ++ r

/-- The canonical encoding (R86): unused fields are zero. A wire frame encodes to its bits on the wire (R72 to R74),
the first on the wire the most significant. -/
def encode : Instr → Encoded
  | .init => .command (packCommand 0x01 0 0 0 0 0)
  | .setpix i r g b => .command (packCommand 0x02 (BitVec.ofInt 8 i) (fieldOf r) (fieldOf g) (fieldOf b) 0)
  | .setpixa i r g b a => .command (packCommand 0x03 (BitVec.ofInt 8 i) (fieldOf r) (fieldOf g) (fieldOf b) (fieldOf a))
  | .setall r g b => .command (packCommand 0x04 0 (fieldOf r) (fieldOf g) (fieldOf b) 0)
  | .setalla r g b a => .command (packCommand 0x05 0 (fieldOf r) (fieldOf g) (fieldOf b) (fieldOf a))
  | .setbrt i a => .command (packCommand 0x06 (BitVec.ofInt 8 i) 0 0 0 (fieldOf a))
  | .clear => .command (packCommand 0x07 0 0 0 0 0)
  | .xmit => .command (packCommand 0x08 0 0 0 0 0)
  | .wireStart => .wire32 0#32
  | .wirePixel br b g r => .wire32 (pixelWord br b g r)
  | .wireEnd => .wire8 Config.endByte

/-- Whether the fields that the opcode of `w` does not use are zero (R77, R82). -/
def unusedFieldsZero (w : CmdWord) : Bool :=
  match (opField w).toNat with
  | 0x01 | 0x07 | 0x08 => idxField w == 0 && redField w == 0 && greenField w == 0 && blueField w == 0 && brightField w == 0
  | 0x02 => brightField w == 0
  | 0x04 => idxField w == 0 && brightField w == 0
  | 0x05 => idxField w == 0
  | 0x06 => redField w == 0 && greenField w == 0 && blueField w == 0
  | _ => true

end Sys2Proof
end

