-- ==== Sys2Proof/Machine/State.lean ====
section
/-! DEFINITION. The state of the block (spec/10_state.md R20), the record of a run (R8, R35) and the environment's coming
inputs, all plain data, with the state after reset (R34). -/

namespace Sys2Proof.Machine

open Sys2Proof.Config

/-- The content of a slot that has been written (spec/10_state.md R22, R23). -/
structure Pixel where
  r : Byte
  g : Byte
  b : Byte
  br : Bright
  deriving DecidableEq, Repr

/-- The phase inside a bit (spec/10_state.md R28): 0, 1 and 2 in this order. -/
inductive Phase where
  /-- the data write is pending -/
  | data
  /-- the clock-HIGH write is pending -/
  | clockHigh
  /-- the clock-LOW write is pending -/
  | clockLow
  deriving DecidableEq, Repr

/-- The triple `(k, j, ph)` of spec/10_state.md R28. -/
structure SeqPos where
  /-- index of the frame byte being sent, 0 to 36 -/
  k : Fin frameBytes
  /-- number of bits of that byte already sent, 0 to 7 -/
  j : Fin pulsesPerByte
  /-- phase inside the bit -/
  ph : Phase
  deriving DecidableEq, Repr

/-- The sequencer position `SEQ` (spec/10_state.md R28). -/
inductive Seq where
  | idle
  | sending (p : SeqPos)
  deriving DecidableEq, Repr

/-- A port write event (spec/00_scope.md R8). -/
structure Event where
  line : Line
  level : Level
  deriving DecidableEq, Repr

/-- The port's answer to a write (spec/41_transmit.md R137). -/
inductive PortOutcome where
  | done
  | fail
  | never
  deriving DecidableEq, Repr

/-- The four faults of spec/60_exceptions.md R160, each with what it records. None of them stops the machine: a command
that raises one ends in a NEXT state whose response names it (R168, R169), so no step answers `Outcome.fault`
(log entry 11; safe: nothing is hidden by a stop). -/
inductive Fault where
  /-- Raised by SETPIX, SETPIXA and SETBRT on an index outside 0 to 7 (R162). Safe: the spec's own outcome. -/
  | indexOutOfRange (i : Int)
  /-- Raised by SETBRT on a slot never written, and by XMIT with the least such slot (R163). Safe: the spec's own outcome. -/
  | pixelNotInitialized (i : Fin numPixels)
  /-- Raised in a transmit by a port write that answers `fail`, with the position of that write (R164). Safe: the spec's
  own outcome. -/
  | ioError (p : SeqPos)
  /-- Raised by the decoder on a reserved opcode (R166). Safe: the spec's own outcome. -/
  | illegalCommand (opcode : Byte)
  deriving DecidableEq, Repr

/-- Why a step has no meaning. No state that satisfies `State.Inv` meets one of these. -/
inductive Refusal where
  /-- Raised by `exec` for a row that has no meaning yet; no arm is left that does. Safe: the machine stops. -/
  | notModelled (mnemonic : String)
  /-- Raised by a wire-frame row where SEQ is not in that frame's bytes: no such frame is being sent (log entry 13). Safe:
  the machine stops, and no step comes to it. -/
  | frameNotInHand
  /-- Raised by a step that would send the bytes of a slot that holds no value (spec/10_state.md R23, log entry 13). Safe:
  the machine stops; XMIT's check (R131) keeps every run away from it. -/
  | emptySlotOnTheWire
  deriving DecidableEq, Repr

/-- The response that ends a command (spec/60_exceptions.md R161), with what a fault records (R160). -/
inductive Response where
  | ok
  | fault (f : Fault)
  deriving DecidableEq, Repr

/-- The state. `pix`, `seq`, `clk`, `dat` are the block's (spec/10_state.md R20); `trace`, `earlier`, `responses`,
`accepted` are the record (R35); `cmds`, `port`, `resetLine` are what the environment will still do; `portStuck` and `draws` are the model's. -/
structure State where
  /-- The pixel store `PIX` (R21). Slot `i` is `some p` when `PIX[i].valid = 1`, and holds no value otherwise (R23). -/
  pix : Vector (Option Pixel) numPixels
  /-- The sequencer position (R28). -/
  seq : Seq
  /-- The level of the clock line (R30). -/
  clk : Level
  /-- The level of the data line (R30). -/
  dat : Level
  /-- The port writes since the last reset, oldest first (R8, R34). -/
  trace : List Event
  /-- The port writes of before the last reset, oldest first (spec/70_reset_and_hazards.md R203). -/
  earlier : List Event
  /-- The responses given, oldest first (spec/70_reset_and_hazards.md R204). -/
  responses : List Response
  /-- How many words have been accepted (spec/70_reset_and_hazards.md R204). A word that a reset cuts off is among them and
  has no response (log entry 19). -/
  accepted : Nat
  /-- The words the host presents and the block has not accepted, in order (spec/60_exceptions.md R172). -/
  cmds : List CmdWord
  /-- The port's coming answers; once they are used up the port answers `done` (spec/00_scope.md R7). -/
  port : List PortOutcome
  /-- Whether the host resets the block at each coming step; once used up, it does not (spec/70_reset_and_hazards.md R203). -/
  resetLine : List Bool
  /-- The port write at `seq` does not return (spec/41_transmit.md R142). -/
  portStuck : Bool
  /-- How many free values have been taken (`Config.failedWriteLands`). -/
  draws : Nat
  deriving DecidableEq, Repr

/-- The machine right after reset (spec/10_state.md R34, spec/70_reset_and_hazards.md R190), with nothing presented and the
default port. -/
def State.reset : State where
  pix := Vector.replicate numPixels none
  seq := .idle
  clk := clkReset
  dat := datReset
  trace := []
  earlier := []
  responses := []
  accepted := 0
  cmds := []
  port := []
  resetLine := []
  portStuck := false
  draws := 0

/-- What the step finds to do: run a row in a state, take a state with no row to run, or stop. -/
inductive Fetched where
  | run (i : Instr) (s : State)
  | take (s : State)
  | stop (r : Refusal)
  deriving DecidableEq, Repr

end Sys2Proof.Machine
end

