-- ==== Sys2Proof/Machine/Flags.lean ====
section
/-! DEFINITION. The flags of the block: the eight `valid` bits and the derived BUSY (spec/10_state.md R29), and the check
of all of them that XMIT makes (spec/41_transmit.md R131). There are no condition codes. -/

namespace Sys2Proof.Machine

open Sys2Proof.Config

/-- `PIX[i]`: its content when valid, `none` when not (spec/00_scope.md R11, spec/10_state.md R23). -/
def State.slot (s : State) (i : Fin numPixels) : Option Pixel :=
  s.pix.get i

/-- `PIX[i].valid` (spec/10_state.md R23). -/
def State.valid (s : State) (i : Fin numPixels) : Bool :=
  (s.slot i).isSome

/-- `BUSY`, which is `SEQ != idle` (spec/10_state.md R29). -/
def State.busy (s : State) : Bool :=
  match s.seq with
  | .idle => false
  | .sending _ => true

/-- The least index whose slot is not valid (spec/41_transmit.md R130, R131). -/
def State.firstInvalid (s : State) : Option (Fin numPixels) :=
  (List.finRange numPixels).find? fun i => !s.valid i

/-- The ready line of the command port (spec/60_exceptions.md R172, D2). -/
def State.ready (s : State) : Bool :=
  !s.busy && !s.portStuck

end Sys2Proof.Machine
end

