-- ==== Sys2Proof/Machine/Operands.lean ====
section
/-! DEFINITION. The operand forms: truncation, the two normalising functions and the index check
(spec/00_scope.md R10, spec/40_pixel_store_ops.md R101 to R103). A rational is read as its numerator over its
denominator, so that every result is integer arithmetic. -/

namespace Sys2Proof.Machine

open Sys2Proof.Config

/-- `trunc(q)`: rounding toward zero (spec/00_scope.md R10). -/
def trunc (q : Rat) : Int :=
  q.num.tdiv q.den

/-- `trunc(n * q)` for an integer `n`, exact: the product is not rounded before (spec/40_pixel_store_ops.md R102, D4). -/
def truncMul (n : Int) (q : Rat) : Int :=
  (n * q.num).tdiv q.den

/-- `col8(v) = trunc(v) mod 256` (spec/40_pixel_store_ops.md R101). -/
def col8 (v : Rat) : Byte :=
  BitVec.ofInt 8 (trunc v % colourModulus)

/-- `brt5(f) = trunc(31 * f) mod 32` (spec/40_pixel_store_ops.md R102). Truncation, not floor: spec/90_conflicts.md C1. -/
def brt5 (f : Rat) : Bright :=
  BitVec.ofInt 5 (truncMul brightScale f % brightModulus)

/-- The index check (spec/40_pixel_store_ops.md R103): the slot an index names, or none outside 0 to 7. -/
def slotIndex (i : Int) : Option (Fin numPixels) :=
  if h : i.toNat < numPixels then (if 0 ≤ i then some ⟨i.toNat, h⟩ else none) else none

end Sys2Proof.Machine
end

