-- ==== Sys2Proof/Machine/Ops.lean ====
section
/-! DEFINITION. The operations that the meanings share: responding and raising a fault, writing slots, writing the port,
moving the sequencer, reset, and finding what the next step does. -/

namespace Sys2Proof.Machine

open Sys2Proof.Config

/-! ## Ending a command -/

/-- `respond(code)` (spec/00_scope.md R11): the one response of a command is recorded. -/
def State.respond (s : State) (r : Response) : State :=
  { s with responses := s.responses ++ [r] }

/-- `respond(OK)`: the command is complete. -/
def complete (s : State) : Host.Outcome State Fault Refusal :=
  .next (s.respond .ok)

/-- `raise f`: TAKING A FAULT (spec/60_exceptions.md R168). It saves nothing and goes nowhere: the command ends, its response
names the fault, and the state it is raised in is otherwise kept. -/
def raise (f : Fault) (s : State) : Host.Outcome State Fault Refusal :=
  .next (s.respond (.fault f))

/-- The 3-bit response code (spec/60_exceptions.md R161). -/
def Response.code : Response → BitVec 3
  | .ok => 0#3
  | .fault (.indexOutOfRange _) => 1#3
  | .fault (.pixelNotInitialized _) => 2#3
  | .fault (.ioError _) => 3#3
  | .fault (.illegalCommand _) => 4#3

/-! ## The pixel store -/

/-- `PIX[i] <- p` with `valid = 1` (spec/00_scope.md R11). -/
def State.writeSlot (s : State) (i : Fin numPixels) (p : Pixel) : State :=
  { s with pix := s.pix.set i (some p) }

/-- The write of all eight slots by one command, each from its own old content (spec/40_pixel_store_ops.md R113). -/
def State.writeAll (s : State) (f : Option Pixel → Pixel) : State :=
  { s with pix := Vector.ofFn fun i => some (f (s.slot i)) }

/-- The brightness a write without a brightness operand leaves: the slot's own if it is valid, else 31
(spec/40_pixel_store_ops.md R105). -/
def keptBrightness : Option Pixel → Bright
  | some p => p.br
  | none => brightDefault

/-- The pixel that INIT writes (spec/40_pixel_store_ops.md R104). -/
def defaultPixel : Pixel where
  r := colourDefault
  g := colourDefault
  b := colourDefault
  br := brightDefault

/-- What SETPIX makes of a slot (spec/40_pixel_store_ops.md R105). -/
def recolour (r g b : Rat) (old : Option Pixel) : Pixel where
  r := col8 r
  g := col8 g
  b := col8 b
  br := keptBrightness old

/-- What SETPIXA makes of a slot (spec/40_pixel_store_ops.md R106). -/
def repaint (r g b a : Rat) : Pixel where
  r := col8 r
  g := col8 g
  b := col8 b
  br := brt5 a

/-! ## The port -/

/-- The level of a line takes `v` (spec/10_state.md R30). -/
def State.setLine (s : State) (l : Line) (v : Level) : State :=
  match l with
  | .clk => { s with clk := v }
  | .dat => { s with dat := v }

/-- The level a line holds. -/
def State.line (s : State) : Line → Level
  | .clk => s.clk
  | .dat => s.dat

/-- The pin identifier of a line in the reference deployment (spec/20_memory.md R59). -/
def Line.pin : Line → Nat
  | .clk => clockPin
  | .dat => dataPin

/-- The answer the port gives to the next write: the default is `done` (spec/00_scope.md R7, spec/41_transmit.md R137). -/
def State.portAnswer (s : State) : PortOutcome :=
  s.port.headD .done

/-- The write is made: it is an event of the trace, also when the level does not change (spec/10_state.md R30), and the
port's answer to it is used up. -/
def State.record (s : State) (e : Event) : State :=
  { s with trace := s.trace ++ [e], port := s.port.tail }

/-- The level of a line after a write that did not answer `done`: the old one or the new one, a FREE VALUE
(spec/93_implementation_defined.md U4, log entries 5 and 6). -/
def State.drawLine (s : State) (l : Line) (v : Level) : State :=
  { s.setLine l (if failedWriteLands s.draws then v else s.line l) with draws := s.draws + 1 }

/-- `PortSet(line, level)` (spec/00_scope.md R11, spec/10_state.md R30, spec/41_transmit.md R137): the state after the write.
The outcome is `s.portAnswer`. -/
def State.portSet (s : State) (e : Event) : State :=
  match s.portAnswer with
  | .done => (s.record e).setLine e.line e.level
  | .fail | .never => (s.record e).drawLine e.line e.level

/-! ## The sequencer -/

/-- `(0, 0, 0)`, where an accepted XMIT starts (spec/41_transmit.md R138). -/
def SeqPos.start : SeqPos where
  k := ⟨0, by decide⟩
  j := ⟨0, by decide⟩
  ph := .data

/-- `next` of spec/41_transmit.md R138; `none` stands for idle. -/
def SeqPos.next (p : SeqPos) : Option SeqPos :=
  match p.ph with
  | .data => some { p with ph := .clockHigh }
  | .clockHigh => some { p with ph := .clockLow }
  | .clockLow =>
    if hj : p.j.val + 1 < pulsesPerByte then some { k := p.k, j := ⟨p.j.val + 1, hj⟩, ph := .data }
    else if hk : p.k.val + 1 < frameBytes then some { k := ⟨p.k.val + 1, hk⟩, j := ⟨0, by decide⟩, ph := .data }
    else none

/-- Bit `7 - j` of a byte, the `j`-th on the wire (spec/41_transmit.md R135). -/
def wireBit (v : Byte) (j : Nat) : Bool :=
  v.getLsbD (7 - j)

/-- The port write at a position while byte `v` is sent (spec/41_transmit.md R136, R138). -/
def SeqPos.write (p : SeqPos) (v : Byte) : Event :=
  match p.ph with
  | .data => ⟨.dat, Level.ofBool (wireBit v p.j)⟩
  | .clockHigh => ⟨.clk, .high⟩
  | .clockLow => ⟨.clk, .low⟩

/-- A write that answered `done` moves the sequencer on; the last one ends the command (spec/41_transmit.md R138, R140). -/
def State.advance (s : State) (p : SeqPos) : Host.Outcome State Fault Refusal :=
  match p.next with
  | some q => .next { s with seq := .sending q }
  | none => complete { s with seq := .idle }

/-- One step of the sequencer (spec/41_transmit.md R138): one port write of byte `v` at position `p`, with the abort of R141
and the hang of R142. -/
def sendWrite (p : SeqPos) (v : Byte) (s : State) : Host.Outcome State Fault Refusal :=
  match s.portAnswer with
  | .done => (s.portSet (p.write v)).advance p
  | .fail => raise (.ioError p) { s.portSet (p.write v) with seq := .idle }
  | .never => .next { s.portSet (p.write v) with portStuck := true }

/-! ## The bytes of the frame -/

/-- `pixel_byte(p, f)` (spec/41_transmit.md R133). -/
def Pixel.wireByte (p : Pixel) (f : Nat) : Byte :=
  match f with
  | 0 => pixelHeader ||| p.br.setWidth 8
  | 1 => p.b
  | 2 => p.g
  | _ => p.r

/-- The start frame's byte at position `k` of the frame, where the start frame is (spec/41_transmit.md R132). -/
def startFrameByte (k : Nat) : Option Byte :=
  if k < startBytes then some startByte else none

/-- A pixel frame's byte at position `k` of the frame, where pixel frames are (spec/41_transmit.md R132). -/
def pixelFrameByte (p : Pixel) (k : Nat) : Option Byte :=
  if startBytes ≤ k ∧ k < startBytes + bytesPerPixel * numPixels then
    some (p.wireByte ((k - startBytes) % bytesPerPixel))
  else none

/-- The end frame's byte at position `k` of the frame, where the end frame is (spec/41_transmit.md R132). -/
def endFrameByte (k : Nat) : Option Byte :=
  if startBytes + bytesPerPixel * numPixels ≤ k then some endByte else none

/-- A wire frame is sent while SEQ is in its bytes: one port write of it (log entry 1). Elsewhere no such frame is being
sent (log entry 13). -/
def sendFrame (byteAt : Nat → Option Byte) (s : State) : Host.Outcome State Fault Refusal :=
  match s.seq with
  | .idle => .refused .frameNotInHand
  | .sending p =>
    match byteAt p.k with
    | some v => sendWrite p v s
    | none => .refused .frameNotInHand

/-- The slot whose frame holds position `k` (spec/41_transmit.md R132); used where `k` is in a pixel frame. -/
def pixelOfByte (k : Nat) : Fin numPixels :=
  Fin.ofNat numPixels ((k - startBytes) / bytesPerPixel)

/-- The wire frame that SEQ is in, as a row: the start frame, the frame of the pixel in its slot, or the end frame
(spec/30_encoding.md R71). `none` where the slot holds no value. -/
def State.frameInHand (s : State) (p : SeqPos) : Option Instr :=
  if p.k.val < startBytes then some .wireStart
  else if p.k.val < startBytes + bytesPerPixel * numPixels then
    match s.slot (pixelOfByte p.k) with
    | some x => some (.wirePixel x.br x.b x.g x.r)
    | none => none
  else some .wireEnd

/-! ## Reset and the command port -/

/-- The reset event (spec/70_reset_and_hazards.md R190, R203): the block is as after reset, the trace is empty and its events
stay in the observation; the responses given and the count of accepted words stay; the environment's coming inputs are the
environment's (log entries 9, 10 and 19). -/
def State.hostReset (s : State) : State :=
  { State.reset with
    earlier := s.earlier ++ s.trace
    responses := s.responses
    accepted := s.accepted
    cmds := s.cmds
    port := s.port
    resetLine := s.resetLine
    draws := s.draws }

/-- Whether the host resets the block at this step. -/
def State.resetNow (s : State) : Bool :=
  s.resetLine.headD false

/-- The reset line is sampled once at every step. -/
def State.sampleReset (s : State) : State :=
  { s with resetLine := s.resetLine.tail }

/-- The first of the words presented is accepted, and `rest` are those after it (spec/60_exceptions.md R172). -/
def State.consume (s : State) (rest : List CmdWord) : State :=
  { s with cmds := rest, accepted := s.accepted + 1 }

/-- Acceptance of the next word (spec/60_exceptions.md R172, spec/20_memory.md R63): it is consumed once, its operands are
sampled; a reserved opcode ends it with IllegalCommand (R166). With no word presented the block waits
(spec/60_exceptions.md R175). -/
def State.accept (s : State) : Fetched :=
  match s.cmds with
  | [] => .take s
  | w :: rest =>
    match decode w with
    | .op i => .run i (s.consume rest)
    | .illegal opcode => .take ((s.consume rest).respond (.fault (.illegalCommand opcode)))

/-- What the block does next when it is not being reset: nothing while a port write does not return (R142), the next port
write while a transmit runs (R138), else the next command (R172). -/
def State.continue (s : State) : Fetched :=
  if s.portStuck then .take s
  else
    match s.seq with
    | .idle => s.accept
    | .sending p =>
      match s.frameInHand p with
      | some i => .run i s
      | none => .stop .emptySlotOnTheWire

/-- What the next step does: a reset comes before everything else. -/
def State.fetch (s : State) : Fetched :=
  if s.resetNow then .take s.sampleReset.hostReset
  else s.sampleReset.continue

/-- The word is presented so that the next step accepts it: the block is idle, its port is not stuck and the host does not
reset it at that step. -/
def State.present (s : State) (w : CmdWord) : State :=
  { s with cmds := w :: s.cmds, seq := .idle, portStuck := false, resetLine := false :: s.resetLine }

/-- A wire frame is in hand at its first write, so that the next step makes that write: SEQ is at the frame's first byte, and
slot 0 holds a pixel frame's pixel. A command row is left to `State.present`. -/
def State.presentFrame (s : State) (i : Instr) : State :=
  let go (t : State) (k : Fin frameBytes) : State :=
    { t with seq := .sending ⟨k, ⟨0, by decide⟩, .data⟩, portStuck := false, resetLine := false :: s.resetLine }
  match i with
  | .wireStart => go s ⟨0, by decide⟩
  | .wirePixel br b g r => go (s.writeSlot ⟨0, by decide⟩ ⟨r, g, b, br⟩) ⟨startBytes, by decide⟩
  | .wireEnd => go s ⟨startBytes + bytesPerPixel * numPixels, by decide⟩
  | .init | .setpix _ _ _ _ | .setpixa _ _ _ _ _ | .setall _ _ _ | .setalla _ _ _ _ | .setbrt _ _ => s
  | .clear | .xmit => s

/-- The row that `nbits` bits `w` stand for in spec/opcode_table.json's numbering, placed so that the next step runs it: a
wire frame is in hand at its first write, all else is the next command word presented (log entry 14). -/
def State.placeTableWord (s : State) (nbits w : Nat) : State :=
  match decodeTableWord nbits w with
  | some .wireStart => s.presentFrame .wireStart
  | some (.wirePixel br b g r) => s.presentFrame (.wirePixel br b g r)
  | some .wireEnd => s.presentFrame .wireEnd
  | some _ | none => s.present (BitVec.ofNat 144 (w % 2 ^ nbits))

end Sys2Proof.Machine
end

