-- ==== Sys2Proof/Machine/PixelStore.lean ====
section
/-! DEFINITION. The seven commands that write the pixel store (spec/40_pixel_store_ops.md R104 to R110). -/

namespace Sys2Proof.Machine

open Sys2Proof.Config

/-- INIT (R104). -/
def execInit (s : State) : Host.Outcome State Fault Refusal :=
  complete (s.writeAll fun _ => defaultPixel)

/-- SETPIX (R105). -/
def execSetpix (i : Int) (r g b : Rat) (s : State) : Host.Outcome State Fault Refusal :=
  match slotIndex i with
  | none => raise (.indexOutOfRange i) s
  | some n => complete (s.writeSlot n (recolour r g b (s.slot n)))

/-- SETPIXA (R106). -/
def execSetpixa (i : Int) (r g b a : Rat) (s : State) : Host.Outcome State Fault Refusal :=
  match slotIndex i with
  | none => raise (.indexOutOfRange i) s
  | some n => complete (s.writeSlot n (repaint r g b a))

/-- SETALL (R107). -/
def execSetall (r g b : Rat) (s : State) : Host.Outcome State Fault Refusal :=
  complete (s.writeAll (recolour r g b))

/-- SETALLA (R108). -/
def execSetalla (r g b a : Rat) (s : State) : Host.Outcome State Fault Refusal :=
  complete (s.writeAll fun _ => repaint r g b a)

/-- SETBRT (R109): the index is checked first, then the slot (spec/60_exceptions.md R167). -/
def execSetbrt (i : Int) (a : Rat) (s : State) : Host.Outcome State Fault Refusal :=
  match slotIndex i with
  | none => raise (.indexOutOfRange i) s
  | some n =>
    match s.slot n with
    | none => raise (.pixelNotInitialized n) s
    | some p => complete (s.writeSlot n { p with br := brt5 a })

/-- CLEAR (R110): white, the brightness of each slot kept. -/
def execClear (s : State) : Host.Outcome State Fault Refusal :=
  complete (s.writeAll fun old =>
    { r := colourDefault, g := colourDefault, b := colourDefault, br := keptBrightness old })

end Sys2Proof.Machine
end

