-- ==== Sys2Proof/Machine/Transmit.lean ====
section
/-! DEFINITION. XMIT and the three wire frames it sends (spec/41_transmit.md R130 to R142, spec/30_encoding.md R71 to R75). -/

namespace Sys2Proof.Machine

open Sys2Proof.Config

/-- XMIT (R130, R131, R138): every slot is checked first; then the sequencer starts, and the command's response is given with
the last port write. -/
def execXmit (s : State) : Host.Outcome State Fault Refusal :=
  match s.firstInvalid with
  | some n => raise (.pixelNotInitialized n) s
  | none => .next { s with seq := .sending SeqPos.start }

/-- WIRE.START (R72): the next port write of the start frame. -/
def execWireStart (s : State) : Host.Outcome State Fault Refusal :=
  sendFrame startFrameByte s

/-- WIRE.PIXEL (R73): the next port write of a pixel frame. -/
def execWirePixel (br : Bright) (b g r : Byte) (s : State) : Host.Outcome State Fault Refusal :=
  sendFrame (pixelFrameByte ⟨r, g, b, br⟩) s

/-- WIRE.END (R74): the next port write of the end frame. -/
def execWireEnd (s : State) : Host.Outcome State Fault Refusal :=
  sendFrame endFrameByte s

end Sys2Proof.Machine
end

