-- ==== Sys2Proof/Machine/Dispatch.lean ====
section
/-! DEFINITION. One arm per row of spec/opcode_table.json. -/

namespace Sys2Proof.Machine

def exec (i : Instr) (s : State) : Host.Outcome State Fault Refusal :=
  match i with
  | .init => Sys2Proof.Machine.execInit s
  | .setpix n r g b => Sys2Proof.Machine.execSetpix n r g b s
  | .setpixa n r g b a => Sys2Proof.Machine.execSetpixa n r g b a s
  | .setall r g b => Sys2Proof.Machine.execSetall r g b s
  | .setalla r g b a => Sys2Proof.Machine.execSetalla r g b a s
  | .setbrt n a => Sys2Proof.Machine.execSetbrt n a s
  | .clear => Sys2Proof.Machine.execClear s
  | .xmit => Sys2Proof.Machine.execXmit s
  -- the wire frames that XMIT sends
  | .wireStart => Sys2Proof.Machine.execWireStart s
  | .wirePixel br b g r => Sys2Proof.Machine.execWirePixel br b g r s
  | .wireEnd => Sys2Proof.Machine.execWireEnd s

end Sys2Proof.Machine
end

