-- ==== Sys2Proof/Machine/Step.lean ====
section
/-! DEFINITION. The step of the machine: what `State.fetch` finds is done. -/

namespace Sys2Proof.Machine

/-- One step: a reset, one port write of a running transmit, the execution of one accepted command, or waiting. -/
def step (s : State) : Host.Outcome State Fault Refusal :=
  match s.fetch with
  | .run i t => exec i t
  | .take t => .next t
  | .stop r => .refused r

/-- `s` with the row of `nbits` bits `w` placed so that the next step runs it (log entry 14). -/
def State.withFetchWord (s : State) (nbits w : Nat) : State :=
  s.placeTableWord nbits w

end Sys2Proof.Machine
end

