-- ==== Sys2Proof/Machine/Assembler.lean ====
section
/-! DEFINITION. The assembler's line syntax and its rounding (spec/30_encoding.md R84, R87). A line is a list of characters;
what R84 does not settle of it is in log entry 18. -/

namespace Sys2Proof.Machine

/-- The parts of a text between the characters `c`. -/
def splitOnChar (c : Char) : List Char → List (List Char)
  | [] => [[]]
  | x :: rest =>
    match splitOnChar c rest with
    | [] => [[]]
    | h :: t => if x = c then [] :: h :: t else (x :: h) :: t

/-- A text without the spaces at its ends. -/
def trimSpaces (cs : List Char) : List Char :=
  ((cs.dropWhile (· == ' ')).reverse.dropWhile (· == ' ')).reverse

/-- The value of a decimal digit. -/
def digitValue (c : Char) : Option Nat :=
  if 48 ≤ c.toNat ∧ c.toNat ≤ 57 then some (c.toNat - 48) else none

/-- The digits of a text read on from `n`. -/
def digitsFrom (n : Nat) : List Char → Option Nat
  | [] => some n
  | c :: rest =>
    match digitValue c with
    | some d => digitsFrom (10 * n + d) rest
    | none => none

/-- A decimal natural number of at least one digit. -/
def parseDigits (cs : List Char) : Option Nat :=
  if cs = [] then none else digitsFrom 0 cs

/-- A decimal number without sign, with an optional fraction. -/
def parseUnsigned (cs : List Char) : Option Rat :=
  match splitOnChar '.' cs with
  | [whole] => (parseDigits whole).map fun n => mkRat n 1
  | [whole, frac] =>
    match parseDigits whole, parseDigits frac with
    | some n, some f => some (mkRat (n * 10 ^ frac.length + f : Nat) (10 ^ frac.length))
    | _, _ => none
  | _ => none

/-- A numeric operand: a decimal number with optional sign and fraction (R84). -/
def parseNumber : List Char → Option Rat
  | '-' :: rest => (parseUnsigned rest).map fun v => -v
  | '+' :: rest => parseUnsigned rest
  | cs => parseUnsigned cs

/-- An index operand: a decimal integer 0 to 255 (R84). -/
def parseIndex (cs : List Char) : Option Int :=
  match parseDigits cs with
  | some n => if n ≤ 255 then some n else none
  | none => none

/-- The operation with a mnemonic and the texts of its operands, in the order of the source call (R84). -/
def parseOperation (name : List Char) (operands : List (List Char)) : Option Instr :=
  match operands with
  | [] =>
    if name = "INIT".toList then some .init
    else if name = "CLEAR".toList then some .clear
    else if name = "XMIT".toList then some .xmit
    else none
  | [i, a] =>
    if name = "SETBRT".toList then
      match parseIndex i, parseNumber a with
      | some i, some a => some (.setbrt i a)
      | _, _ => none
    else none
  | [r, g, b] =>
    if name = "SETALL".toList then
      match parseNumber r, parseNumber g, parseNumber b with
      | some r, some g, some b => some (.setall r g b)
      | _, _, _ => none
    else none
  | [x, y, z, a] =>
    if name = "SETPIX".toList then
      match parseIndex x, parseNumber y, parseNumber z, parseNumber a with
      | some i, some r, some g, some b => some (.setpix i r g b)
      | _, _, _, _ => none
    else if name = "SETALLA".toList then
      match parseNumber x, parseNumber y, parseNumber z, parseNumber a with
      | some r, some g, some b, some a => some (.setalla r g b a)
      | _, _, _, _ => none
    else none
  | [i, r, g, b, a] =>
    if name = "SETPIXA".toList then
      match parseIndex i, parseNumber r, parseNumber g, parseNumber b, parseNumber a with
      | some i, some r, some g, some b, some a => some (.setpixa i r g b a)
      | _, _, _, _, _ => none
    else none
  | _ => none

/-- One line: the mnemonic, then the operands separated by commas (R84). -/
def parseLine (line : List Char) : Option Instr :=
  let body := trimSpaces line
  let rest := trimSpaces (body.dropWhile (· != ' '))
  parseOperation (body.takeWhile (· != ' ')) (if rest = [] then [] else (splitOnChar ',' rest).map trimSpaces)

/-- The rounded units of a number are a signed 32-bit value (R87). -/
def unitsFit (v : Rat) : Bool :=
  decide (-2147483648 ≤ fieldUnits v ∧ fieldUnits v < 2147483648)

/-- The word of an operation, or none where the assembler rejects it (R87): a number out of range, an index out of its field,
or a row that is no command. -/
def assembleOperation (i : Instr) : Option CmdWord :=
  if i.indices.all indexFits && i.numbers.all unitsFit then
    match encode i with
    | .command w => some w
    | .wire32 _ | .wire8 _ => none
  else none

/-- The word of a line (R84, R86, R87). -/
def assembleLine (line : List Char) : Option CmdWord :=
  match parseLine line with
  | some i => assembleOperation i
  | none => none

end Sys2Proof.Machine
end

