-- ==== Sys2Proof/Machine/Observe.lean ====
section
/-! DEFINITION. The big-step view of a transmit (spec/41_transmit.md R130, R134 to R136, R139) and what a receiver samples
(R143). -/

namespace Sys2Proof.Machine

open Sys2Proof.Config

/-- `frame_byte(k)` as a function of the eight pixels (R132). -/
def frameByte (px : Fin numPixels → Pixel) (k : Nat) : Byte :=
  if k < startBytes then startByte
  else if k < startBytes + bytesPerPixel * numPixels then (px (pixelOfByte k)).wireByte ((k - startBytes) % bytesPerPixel)
  else endByte

/-- `writeBit(x)` (R136): the three port writes of a bit. -/
def bitEvents (x : Bool) : List Event :=
  [⟨.dat, Level.ofBool x⟩, ⟨.clk, .high⟩, ⟨.clk, .low⟩]

/-- `writeByte(v)` (R135): the bits from bit 7 down, as many as there are pixels. -/
def byteEvents (v : Byte) : List Event :=
  (List.range pulsesPerByte).flatMap fun j => bitEvents (wireBit v j)

/-- The bytes of a frame in the order they are sent (R134). -/
def frameBytesOf (px : Fin numPixels → Pixel) : List Byte :=
  (List.range frameBytes).map (frameByte px)

/-- The port writes of a complete transmit (R130, R139). -/
def frameEvents (px : Fin numPixels → Pixel) : List Event :=
  (frameBytesOf px).flatMap byteEvents

/-- `bit(n) = frame_byte(n div 8)[7 - (n mod 8)]` (R139). -/
def frameBit (px : Fin numPixels → Pixel) (n : Nat) : Bool :=
  wireBit (frameByte px (n / pulsesPerByte)) (n % pulsesPerByte)

/-- The place of a position among the writes of a transmit: 3n for the data write of bit n, then 3n + 1 and 3n + 2
(spec/95_test_vectors.md V76). -/
def SeqPos.number (p : SeqPos) : Nat :=
  (p.k.val * pulsesPerByte + p.j.val) * 3 + (match p.ph with | .data => 0 | .clockHigh => 1 | .clockLow => 2)

/-- The levels of DAT at the events that change CLK from LOW to HIGH (R143), from given levels of CLK and DAT. DESIGN CHOICE
(log entry 20): every event is read as a write that was done. R141 leaves the line's level open after a write that failed, so
on a list that holds one (or one that never returned) this is what a receiver would see had it landed; unsafe there. -/
def sampledBits (clk dat : Level) : List Event → List Level
  | [] => []
  | ⟨.dat, v⟩ :: rest => sampledBits clk v rest
  | ⟨.clk, .low⟩ :: rest => sampledBits .low dat rest
  | ⟨.clk, .high⟩ :: rest =>
    if clk = .low then dat :: sampledBits .high dat rest else sampledBits .high dat rest

/-- The levels of DAT at the events that change CLK from HIGH to LOW (R143). DESIGN CHOICE (log entry 20): every event is read
as a write that was done, as in `sampledBits`; unsafe on a list that holds a write that was not. -/
def fallingBits (clk dat : Level) : List Event → List Level
  | [] => []
  | ⟨.dat, v⟩ :: rest => fallingBits clk v rest
  | ⟨.clk, .high⟩ :: rest => fallingBits .high dat rest
  | ⟨.clk, .low⟩ :: rest =>
    if clk = .high then dat :: fallingBits .low dat rest else fallingBits .low dat rest

/-- The response codes of a run (spec/70_reset_and_hazards.md R204). -/
def State.codes (s : State) : List (BitVec 3) :=
  s.responses.map Response.code

/-- The whole observation of port writes, those of before a reset included (spec/70_reset_and_hazards.md R203). -/
def State.observed (s : State) : List Event :=
  s.earlier ++ s.trace

end Sys2Proof.Machine
end

