-- ==== Sys2Proof/Safety.lean ====
section
/-! DEFINITION. The terms of the claims: several steps, the end of a run (spec/70_reset_and_hazards.md R204), what the
environment is assumed to do, and the invariant of the block. -/

namespace Sys2Proof.Machine

open Sys2Proof.Config

/-- The state after `n` steps; `none` if one of them stops. -/
def State.after : Nat → State → Option State
  | 0, s => some s
  | n + 1, s =>
    match step s with
    | .next t => State.after n t
    | .fault _ | .refused _ => none

/-- The state after the operations of a list, one after the other; `none` if one of them stops. -/
def execAll : List Instr → State → Option State
  | [], s => some s
  | i :: rest, s =>
    match exec i s with
    | .next t => execAll rest t
    | .fault _ | .refused _ => none

/-- The start of a run (spec/70_reset_and_hazards.md R204): the words `ws` are presented, in order, to a block in the state
`s`, under the port's answers `port`; no word of the run is accepted and none has a response. -/
def State.startRun (s : State) (ws : List CmdWord) (port : List PortOutcome) : State :=
  { s with cmds := ws, port := port, responses := [], accepted := 0 }

/-- How many accepted words are being executed: the XMIT of a running transmit (spec/10_state.md R28). -/
def State.running (s : State) : Nat :=
  if s.busy then 1 else 0

/-- Every response, and the transmit that runs, belongs to an accepted word (spec/60_exceptions.md R161). -/
def State.Counted (s : State) : Prop :=
  s.responses.length + s.running ≤ s.accepted

/-- A run is over: every word presented has been accepted, and every accepted word has its response
(spec/70_reset_and_hazards.md R204). A run in which a reset cut off a transmit is never over, for that XMIT has no response
(log entry 19); nor is a hang. -/
def State.over (s : State) : Prop :=
  s.cmds = [] ∧ s.seq = .idle ∧ s.responses.length = s.accepted

/-- What a run gives (spec/70_reset_and_hazards.md R204). -/
structure RunResult where
  codes : List (BitVec 3)
  events : List Event
  pix : Vector (Option Pixel) numPixels
  clk : Level
  dat : Level
  deriving DecidableEq, Repr

/-- The result of a run that has come to `s`. -/
def State.runResult (s : State) : RunResult where
  codes := s.codes
  events := s.observed
  pix := s.pix
  clk := s.clk
  dat := s.dat

/-- The premise of a claim that everything presented succeeded, for a run that is over (spec/70_reset_and_hazards.md R204). -/
def State.allOk (s : State) : Prop :=
  ∀ c ∈ s.codes, c = 0#3

/-- Every slot is valid, and the pixels are `px`. -/
def State.Shows (s : State) (px : Fin numPixels → Pixel) : Prop :=
  ∀ i, s.slot i = some (px i)

/-- The port answers `done` to the next `n` writes (spec/92_eei_decisions.md D15). -/
def State.PortDoneFor (s : State) (n : Nat) : Prop :=
  ∀ m, m < n → s.port.getD m .done = .done

/-- The host does not reset the block in the next `n` steps. -/
def State.NoResetFor (s : State) (n : Nat) : Prop :=
  ∀ m, m < n → s.resetLine.getD m false = false

/-- The bit of the frame that a position is in (spec/41_transmit.md R138). -/
def SeqPos.bit (p : SeqPos) (px : Fin numPixels → Pixel) : Bool :=
  wireBit (frameByte px p.k) p.j

/-- The levels of the lines agree with a position that the sequencer has come to by `done` writes: the clock is LOW but for
a first write (spec/70_reset_and_hazards.md R194) and inside a pulse, and DAT holds the bit once it is written
(spec/41_transmit.md R136). -/
def LinesAgree (p : SeqPos) (px : Fin numPixels → Pixel) (s : State) : Prop :=
  match p.ph with
  | .data => p.number = 0 ∨ s.clk = .low
  | .clockHigh => (p.number = 1 ∨ s.clk = .low) ∧ s.dat = Level.ofBool (p.bit px)
  | .clockLow => s.clk = .high ∧ s.dat = Level.ofBool (p.bit px)

/-- The invariant of the block. Idle, no port write is pending (spec/10_state.md R28). In a transmit every slot is valid
(spec/41_transmit.md R131), the trace ends with exactly the writes of this frame that come before the position (one more
when the pending write does not return, R142), and the lines agree with the position unless the port is stuck. -/
def State.Inv (s : State) : Prop :=
  match s.seq with
  | .idle => s.portStuck = false
  | .sending p =>
    ∃ px before, s.Shows px ∧
      s.trace = before ++ (frameEvents px).take (p.number + (if s.portStuck then 1 else 0)) ∧
      (s.portStuck = false → LinesAgree p px s)

end Sys2Proof.Machine
end

