-- ==== Sys2Proof/Certificates/Slice0/Obligations.lean ====
section
/-! DEFINITION. The statements for the provers, each a Prop about the model; the docstring names the rules of spec/ it
formalises. -/

open Sys2Proof Sys2Proof.Machine Sys2Proof.Config

/-! ## Reset, the step and the command port -/

/-- spec/10_state.md R34: the value of every piece of the block's state after reset, and that the block then waits for a
command: a step with nothing presented changes nothing. -/
def Obligations.ResetValues : Prop :=
  (∀ i, State.reset.valid i = false ∧ State.reset.slot i = none) ∧ State.reset.seq = .idle ∧ State.reset.busy = false ∧
  State.reset.clk = clkReset ∧ State.reset.dat = datReset ∧ State.reset.trace = [] ∧ step State.reset = .next State.reset

/-- spec/70_reset_and_hazards.md R190, R203: a reset comes at any time, also in a transmit or a hang; it puts the block in the
state after reset without a port write, and the events of before stay in the observation. What is kept of the environment's
inputs is the model's choice (log entries 9 and 10). -/
def Obligations.ResetEventEmptiesTheBlock : Prop :=
  ∀ s : State, s.resetNow = true →
    step s = .next { State.reset with
      earlier := s.earlier ++ s.trace, responses := s.responses, accepted := s.accepted, cmds := s.cmds, port := s.port,
      resetLine := s.resetLine.tail, draws := s.draws }

/-- spec/60_exceptions.md R172, spec/30_encoding.md R80: an idle block that is not reset takes the next word presented, and
executes the operation it decodes to. The step adds around `exec` that the word is consumed and counted and that the reset
line is sampled.
The model's choices in it: log entries 8, 9, 19. -/
def Obligations.StepRunsTheAcceptedCommand : Prop :=
  ∀ (s : State) w rest i, s.resetNow = false → s.portStuck = false → s.seq = .idle → s.cmds = w :: rest → decode w = .op i →
    step s = exec i { s with cmds := rest, accepted := s.accepted + 1, resetLine := s.resetLine.tail }

/-- spec/41_transmit.md R138, spec/30_encoding.md R71: in a transmit the step executes the wire frame that SEQ is in: the start
frame in bytes 0 to 3, the frame of pixel (k-4) div 4 in bytes 4 to 35, the end frame in byte 36. The step adds that the
reset line is sampled.
The model's choices in it: log entries 1, 9. -/
def Obligations.StepRunsTheWireFrame : Prop :=
  ∀ (s : State) p, s.resetNow = false → s.portStuck = false → s.seq = .sending p →
    (p.k.val ≤ 3 → step s = exec .wireStart { s with resetLine := s.resetLine.tail }) ∧
    (∀ (n : Fin numPixels) (f : Fin 4) (x : Pixel), p.k.val = 4 + 4 * n.val + f.val → s.slot n = some x →
      step s = exec (.wirePixel x.br x.b x.g x.r) { s with resetLine := s.resetLine.tail }) ∧
    (p.k.val = 36 → step s = exec .wireEnd { s with resetLine := s.resetLine.tail })

/-- spec/60_exceptions.md R166, spec/30_encoding.md R81: a reserved opcode is answered IllegalCommand, response code 4, with
nothing changed and no port write.
The model's choices in it: log entries 8, 9, 19. -/
def Obligations.ReservedOpcodeIsAnswered : Prop :=
  ∀ (s : State) w rest, s.resetNow = false → s.portStuck = false → s.seq = .idle → s.cmds = w :: rest →
    (opField w = 0x00#8 ∨ 0x09#8 ≤ opField w) →
    ∃ t, step s = .next t ∧ t.codes = s.codes ++ [4#3] ∧
      t = { s with
        cmds := rest, accepted := s.accepted + 1, resetLine := s.resetLine.tail,
        responses := s.responses ++ [.fault (.illegalCommand (opField w))] }

/-- spec/60_exceptions.md R172: while the command port is not ready (BUSY, or a port write that does not return) no command is
accepted: a step leaves the presented words, all of them, in their order.
That a reset of a busy block keeps them too is the model's choice.
The model's choices in it: log entries 7, 8, 9. -/
def Obligations.BusyAcceptsNothing : Prop :=
  ∀ s t : State, s.ready = false → step s = .next t → t.cmds = s.cmds

/-- spec/60_exceptions.md R175, spec/20_memory.md R63: with no word presented the block waits; nothing changes but the sampling
of the reset line.
The model's choices in it: log entries 8, 9. -/
def Obligations.IdleBlockWaits : Prop :=
  ∀ s : State, s.resetNow = false → s.seq = .idle → s.cmds = [] →
    step s = .next { s with resetLine := s.resetLine.tail }

/-- spec/60_exceptions.md R161: the numbers of the response codes; 5 to 7 are never produced. -/
def Obligations.ResponseCodeNumbers : Prop :=
  Response.ok.code = 0#3 ∧ (∀ i, (Response.fault (.indexOutOfRange i)).code = 1#3) ∧
  (∀ i, (Response.fault (.pixelNotInitialized i)).code = 2#3) ∧ (∀ p, (Response.fault (.ioError p)).code = 3#3) ∧
  (∀ o, (Response.fault (.illegalCommand o)).code = 4#3) ∧ (∀ r : Response, r.code.toNat ≤ 4)

/-! ## Encodings -/

/-- spec/95_test_vectors.md V80 to V89 and the wire frame of V62: words written out from the encoding rules R76, R77, R73 decode
to the rows they stand for. That 32 or 8 bits are read as a wire frame, and 0xFF at 8 bits as the end frame, is
`decodeTableWord`, the model's choice (log entry 14). -/
def Obligations.SampleWordsDecode : Prop :=
  decode 0x123456789ABCDEF0123456789ABCDEF0FF01#144 = .op .init ∧
  decode 0x00000000012CB333FFFF0000010000000002#144 = .op (.setpix 0 256 (-1) (mkRat 19706675 65536)) ∧
  decode 0x00008000001E000000140000000A00000303#144 = .op (.setpixa 3 10 20 30 (mkRat 1 2)) ∧
  decode 0x000000000003000000020000000100000004#144 = .op (.setall 1 2 3) ∧
  decode 0x0000199A0000000000000000000000000005#144 = .op (.setalla 0 0 0 (mkRat 6554 65536)) ∧
  decode 0x000133330000000000000000000000000706#144 = .op (.setbrt 7 (mkRat 78643 65536)) ∧
  decode 0x000000000000000000000000000000000007#144 = .op .clear ∧
  decode 0x000000000000000000000000000000000008#144 = .op .xmit ∧
  decode 0x000000000000000000000000000000000000#144 = .illegal 0x00#8 ∧
  decode 0x0000000000000000000000000000000000FF#144 = .illegal 0xFF#8 ∧
  decodeTableWord 32 0x00000000 = some .wireStart ∧
  decodeTableWord 32 0xEF1E140A = some (.wirePixel 15 30 20 10) ∧
  decodeTableWord 8 0xFF = some .wireEnd

/-- spec/30_encoding.md R80, R86, R71 to R74: decoding the encoding of a well-formed row gives the row, with every operand at
every value the encoding admits. -/
def Obligations.DecodeOfEncode : Prop :=
  ∀ i : Instr, i.wellFormed = true → decodeEncoded (encode i) = some i

/-- spec/30_encoding.md R82: `encode(decode(w)) = w` holds only for words whose unused fields are zero, and for all of them. -/
def Obligations.EncodeOfDecode : Prop :=
  ∀ w i, decode w = .op i → (encode i = .command w ↔ unusedFieldsZero w = true)

/-- spec/30_encoding.md R81: the reserved opcodes are 0x00 and 0x09 to 0xFF, and a word is Illegal exactly when its opcode is
reserved; the answer names the opcode. -/
def Obligations.IllegalExactlyOnReserved : Prop :=
  ∀ w o, decode w = .illegal o ↔ (o = opField w ∧ (opField w = 0x00#8 ∨ 0x09#8 ≤ opField w))

/-- spec/30_encoding.md R82, R77: a field that the opcode does not use has no effect on what a word decodes to. -/
def Obligations.UnusedFieldsAreIgnored : Prop :=
  ∀ (op idx idx' : Byte) (r g b a r' g' b' a' : Field),
    (op = 0x01#8 ∨ op = 0x07#8 ∨ op = 0x08#8 →
      decode (packCommand op idx r g b a) = decode (packCommand op idx' r' g' b' a')) ∧
    decode (packCommand 0x02#8 idx r g b a) = decode (packCommand 0x02#8 idx r g b a') ∧
    decode (packCommand 0x04#8 idx r g b a) = decode (packCommand 0x04#8 idx' r g b a') ∧
    decode (packCommand 0x05#8 idx r g b a) = decode (packCommand 0x05#8 idx' r g b a) ∧
    decode (packCommand 0x06#8 idx r g b a) = decode (packCommand 0x06#8 idx r' g' b' a)

/-- spec/30_encoding.md R78, R79: what the decoder gives is well-formed: an index 0 to 255 and numbers that are multiples of
1/65536 in the range of the field. -/
def Obligations.DecodedIsWellFormed : Prop :=
  ∀ w i, decode w = .op i → i.wellFormed = true ∧ i.isCommand = true

/-- spec/30_encoding.md R72, R73: a 32-bit wire word that is a frame is the encoding of the row it is read as. -/
def Obligations.WireWordsReadBack : Prop :=
  ∀ w i, decodeWire32 w = some i ↔ ((i = .wireStart ∨ ∃ br b g r, i = .wirePixel br b g r) ∧ encode i = .wire32 w)

/-! ## Numbers -/

/-- spec/00_scope.md R10: `trunc(q)` is the integer nearest to q between q and 0 inclusive. -/
def Obligations.TruncIsTowardZero : Prop :=
  ∀ q : Rat, (0 ≤ q → 0 ≤ (trunc q : Rat) ∧ (trunc q : Rat) ≤ q ∧ q < trunc q + 1) ∧
    (q ≤ 0 → (trunc q : Rat) ≤ 0 ∧ q ≤ (trunc q : Rat) ∧ (trunc q : Rat) - 1 < q)

/-- spec/30_encoding.md R78: `val(F) = sext_32(F) / 65536`, range -32768 to 32767 + 65535/65536. -/
def Obligations.FieldValueIsFixedPoint : Prop :=
  ∀ f : Field, fieldValue f = (f.toInt : Rat) / 65536 ∧ (-32768 : Rat) ≤ fieldValue f ∧
    fieldValue f ≤ 32767 + 65535 / 65536

/-- spec/40_pixel_store_ops.md R101: a stored colour is the truncated value modulo 256, in terms of the rational and of the
command field; 256 goes to 0, -1 to 255. -/
def Obligations.ColoursWrap : Prop :=
  (∀ v : Rat, ((col8 v).toNat : Int) = trunc v % 256) ∧
  (∀ f : Field, ((col8 (fieldValue f)).toNat : Int) = f.toInt.tdiv 65536 % 256) ∧
  (∀ n : Int, ((col8 (n : Rat)).toNat : Int) = n % 256)

/-- spec/40_pixel_store_ops.md R102: a stored brightness is the truncated exact product 31 f modulo 32, in terms of the rational
and of the command field. -/
def Obligations.BrightnessWraps : Prop :=
  (∀ v : Rat, ((brt5 v).toNat : Int) = trunc (31 * v) % 32) ∧
  (∀ f : Field, ((brt5 (fieldValue f)).toNat : Int) = (31 * f.toInt).tdiv 65536 % 32)

/-- spec/40_pixel_store_ops.md R111, the laws of sign, period and symmetry break: negative numbers are legal and everything
strictly between -1 and 1 (for brightness -1/31 and 1/31) goes to 0; the period of `col8` is 256 on integers and where the
sign does not change, that of `brt5` is 32/31 on fractions that are not negative. -/
def Obligations.WrapPeriods : Prop :=
  (∀ v : Rat, -1 < v → v < 1 → col8 v = 0#8) ∧
  (∀ v : Rat, -1 / 31 < v → v < 1 / 31 → brt5 v = 0#5) ∧
  (∀ v : Rat, 0 ≤ v → col8 (v + 256) = col8 v) ∧
  (∀ v : Rat, v + 256 ≤ 0 → col8 (v + 256) = col8 v) ∧
  (∀ n : Int, col8 ((n : Rat) + 256) = col8 (n : Rat)) ∧
  (∀ v : Rat, 0 ≤ v → brt5 (v + 32 / 31) = brt5 v)

/-- spec/30_encoding.md R87: a number in range is written with an error of at most 1/131072, and exactly when it is a multiple
of 1/65536. R87 says "below 1/131072"; a tie has that error exactly. -/
def Obligations.FieldRounding : Prop :=
  ∀ v : Rat, -2147483648 ≤ fieldUnits v → fieldUnits v < 2147483648 →
    |fieldValue (fieldOf v) - v| ≤ 1 / 131072 ∧ (∀ n : Int, v * 65536 = n → fieldValue (fieldOf v) = v)

/-- spec/30_encoding.md R84, R86, R87 with the words of spec/95_test_vectors.md: assembled lines. -/
def Obligations.SampleLinesAssemble : Prop :=
  assembleLine "INIT".toList = some 0x000000000000000000000000000000000001#144 ∧
  assembleLine "SETPIX 0, 256, -1, 300.7".toList = some 0x00000000012CB333FFFF0000010000000002#144 ∧
  assembleLine "SETPIXA 3, 10, 20, 30, 0.5".toList = some 0x00008000001E000000140000000A00000303#144 ∧
  assembleLine "SETALLA 0, 0, 0, 0.1".toList = some 0x0000199A0000000000000000000000000005#144 ∧
  assembleLine "SETBRT 7, 1.2".toList = some 0x000133330000000000000000000000000706#144 ∧
  assembleLine "SETALL 1, 2, 40000".toList = none

/-- spec/30_encoding.md R86, R87, R80: a word that the assembler makes of an operation decodes to the same row with the same
index, each number within 1/131072 of the one written. -/
def Obligations.AssembledWordDecodes : Prop :=
  ∀ i w, assembleOperation i = some w → ∃ j, decode w = .op j ∧ j.mnemonic = i.mnemonic ∧ j.indices = i.indices ∧
    List.Forall₂ (fun v u : Rat => |v - u| ≤ 1 / 131072) j.numbers i.numbers

/-! ## The pixel store commands

`t = { s with pix := t.pix, responses := … }` says that nothing else changes: neither SEQ nor a line nor the trace. -/

/-- spec/40_pixel_store_ops.md R104: its words, and that it makes every slot white at brightness 31, in any state. -/
def Obligations.InitSetsEverySlot : Prop :=
  (∀ w, opField w = 0x01#8 → decode w = .op .init) ∧ encode .init = .command 0x000000000000000000000000000000000001#144 ∧
  ∀ s : State, ∃ t, exec .init s = .next t ∧ (∀ i, t.slot i = some ⟨255#8, 255#8, 255#8, 31#5⟩) ∧
    t = { s with pix := t.pix, responses := s.responses ++ [.ok] }

/-- spec/40_pixel_store_ops.md R105, R103: the colour is written wrapped, the brightness of a valid slot is kept and a slot
never written gets 31; the other slots are unchanged. An index outside 0 to 7 raises IndexOutOfRange and nothing else
happens. -/
def Obligations.SetpixWritesOneSlot : Prop :=
  (∀ w, opField w = 0x02#8 → decode w = .op (.setpix (idxField w).toNat (fieldValue (redField w))
    (fieldValue (greenField w)) (fieldValue (blueField w)))) ∧
  ∀ (s : State) r g b,
    (∀ n : Fin numPixels, ∃ t, exec (.setpix n.val r g b) s = .next t ∧
      (∀ p, s.slot n = some p → t.slot n = some ⟨col8 r, col8 g, col8 b, p.br⟩) ∧
      (s.slot n = none → t.slot n = some ⟨col8 r, col8 g, col8 b, 31#5⟩) ∧
      (∀ m, m ≠ n → t.slot m = s.slot m) ∧
      t = { s with pix := t.pix, responses := s.responses ++ [.ok] }) ∧
    (∀ i : Int, i < 0 ∨ 7 < i → exec (.setpix i r g b) s =
      .next { s with responses := s.responses ++ [.fault (.indexOutOfRange i)] })

/-- spec/40_pixel_store_ops.md R106, R103: one slot gets colour and brightness, written before or not; the others are
unchanged. An index outside 0 to 7 raises IndexOutOfRange and nothing else happens. -/
def Obligations.SetpixaWritesOneSlot : Prop :=
  (∀ w, opField w = 0x03#8 → decode w = .op (.setpixa (idxField w).toNat (fieldValue (redField w))
    (fieldValue (greenField w)) (fieldValue (blueField w)) (fieldValue (brightField w)))) ∧
  ∀ (s : State) r g b a,
    (∀ n : Fin numPixels, ∃ t, exec (.setpixa n.val r g b a) s = .next t ∧
      t.slot n = some ⟨col8 r, col8 g, col8 b, brt5 a⟩ ∧
      (∀ m, m ≠ n → t.slot m = s.slot m) ∧
      t = { s with pix := t.pix, responses := s.responses ++ [.ok] }) ∧
    (∀ i : Int, i < 0 ∨ 7 < i → exec (.setpixa i r g b a) s =
      .next { s with responses := s.responses ++ [.fault (.indexOutOfRange i)] })

/-- spec/40_pixel_store_ops.md R107: each slot keeps its own brightness; slots never set come out at 31. -/
def Obligations.SetallWritesEverySlot : Prop :=
  (∀ w, opField w = 0x04#8 → decode w = .op (.setall (fieldValue (redField w)) (fieldValue (greenField w))
    (fieldValue (blueField w)))) ∧
  ∀ (s : State) r g b, ∃ t, exec (.setall r g b) s = .next t ∧
    (∀ n p, s.slot n = some p → t.slot n = some ⟨col8 r, col8 g, col8 b, p.br⟩) ∧
    (∀ n, s.slot n = none → t.slot n = some ⟨col8 r, col8 g, col8 b, 31#5⟩) ∧
    t = { s with pix := t.pix, responses := s.responses ++ [.ok] }

/-- spec/40_pixel_store_ops.md R108: every slot gets the same colour and brightness. `SETALLA 255, 255, 255, 1` is INIT: the
spec's own inference in R108 from R101, R102 and R104. -/
def Obligations.SetallaWritesEverySlot : Prop :=
  (∀ w, opField w = 0x05#8 → decode w = .op (.setalla (fieldValue (redField w)) (fieldValue (greenField w))
    (fieldValue (blueField w)) (fieldValue (brightField w)))) ∧
  ∀ (s : State) r g b a, ∃ t, exec (.setalla r g b a) s = .next t ∧
    (∀ n, t.slot n = some ⟨col8 r, col8 g, col8 b, brt5 a⟩) ∧
    t = { s with pix := t.pix, responses := s.responses ++ [.ok] } ∧
    exec (.setalla 255 255 255 1) s = exec .init s

/-- spec/40_pixel_store_ops.md R109, spec/60_exceptions.md R167, spec/90_conflicts.md C1: only the brightness of the slot is
written; the index is checked first, then whether the slot was ever set, and a fault writes nothing. On fractions that are
not negative the stored brightness is `floor(31 a) mod 32`. -/
def Obligations.SetbrtWritesBrightnessAlone : Prop :=
  (∀ w, opField w = 0x06#8 → decode w = .op (.setbrt (idxField w).toNat (fieldValue (brightField w)))) ∧
  ∀ (s : State) a,
    (∀ (n : Fin numPixels) p, s.slot n = some p → ∃ t, exec (.setbrt n.val a) s = .next t ∧
      t.slot n = some ⟨p.r, p.g, p.b, brt5 a⟩ ∧
      (∀ m, m ≠ n → t.slot m = s.slot m) ∧
      t = { s with pix := t.pix, responses := s.responses ++ [.ok] }) ∧
    (∀ n : Fin numPixels, s.slot n = none → exec (.setbrt n.val a) s =
      .next { s with responses := s.responses ++ [.fault (.pixelNotInitialized n)] }) ∧
    (∀ i : Int, i < 0 ∨ 7 < i → exec (.setbrt i a) s =
      .next { s with responses := s.responses ++ [.fault (.indexOutOfRange i)] }) ∧
    (0 ≤ a → ((brt5 a).toNat : Int) = ⌊31 * a⌋ % 32)

/-- spec/40_pixel_store_ops.md R110: white, with the brightness of each slot kept; slots never set come out at 31. -/
def Obligations.ClearKeepsBrightness : Prop :=
  (∀ w, opField w = 0x07#8 → decode w = .op .clear) ∧
  ∀ s : State, ∃ t, exec .clear s = .next t ∧
    (∀ n p, s.slot n = some p → t.slot n = some ⟨255#8, 255#8, 255#8, p.br⟩) ∧
    (∀ n, s.slot n = none → t.slot n = some ⟨255#8, 255#8, 255#8, 31#5⟩) ∧
    t = { s with pix := t.pix, responses := s.responses ++ [.ok] }

/-- spec/40_pixel_store_ops.md R110, R104: CLEAR and INIT leave the same colours, and differ exactly in the brightness of slots
that were valid. -/
def Obligations.ClearDiffersFromInitInBrightness : Prop :=
  ∀ (s : State) t u, exec .clear s = .next t → exec .init s = .next u →
    (∀ n x y, t.slot n = some x → u.slot n = some y → x.r = y.r ∧ x.g = y.g ∧ x.b = y.b) ∧
    (∀ n, t.slot n ≠ u.slot n ↔ ∃ p, s.slot n = some p ∧ p.br ≠ 31#5) ∧
    { t with pix := u.pix } = u

/-- spec/30_encoding.md R85: CLEAR is SETALL 255, 255, 255; SETALL and SETALLA leave the store that SETPIX and SETPIXA on the
indices 0 to 7 leave. -/
def Obligations.MultiSlotCommandsAreExpansions : Prop :=
  (∀ s : State, exec .clear s = exec (.setall 255 255 255) s) ∧
  (∀ (s : State) r g b, ∃ t u, exec (.setall r g b) s = .next t ∧
    execAll ((List.range numPixels).map fun n => .setpix n r g b) s = some u ∧ t.pix = u.pix) ∧
  (∀ (s : State) r g b a, ∃ t u, exec (.setalla r g b a) s = .next t ∧
    execAll ((List.range numPixels).map fun n => .setpixa n r g b a) s = some u ∧ t.pix = u.pix)

/-- spec/20_memory.md R58: every pixel store command is idempotent: run a second time it leaves the store and gives the response
of the first. -/
def Obligations.StoreCommandsAreIdempotent : Prop :=
  ∀ i (s : State) t, i.isStoreCommand = true → exec i s = .next t →
    ∃ u, exec i t = .next u ∧ u.pix = t.pix ∧ u.responses.getLast? = t.responses.getLast?

/-- spec/40_pixel_store_ops.md R100, which marks it as the spec's own decision (D27) and inference: every pixel store command ends in a next state with exactly one response, leaves SEQ, the
lines and the trace alone, and on a fault writes nothing. -/
def Obligations.StoreCommandsLeaveThePortAlone : Prop :=
  ∀ i (s : State), i.isStoreCommand = true → ∃ t r, exec i s = .next t ∧
    t = { s with pix := t.pix, responses := s.responses ++ [r] } ∧ (r ≠ .ok → t.pix = s.pix) ∧ r.code ≠ 3#3

/-- spec/40_pixel_store_ops.md R112: no colour and no brightness value makes a command fail: whether SETPIX, SETPIXA, SETALL,
SETALLA or SETBRT is answered OK does not depend on its numbers. -/
def Obligations.ValuesNeverFault : Prop :=
  ∀ (s : State) (i : Int) (r g b a r' g' b' a' : Rat),
    (∃ t u x, exec (.setpix i r g b) s = .next t ∧ exec (.setpix i r' g' b') s = .next u ∧
      t.responses = s.responses ++ [x] ∧ u.responses = s.responses ++ [x]) ∧
    (∃ t u x, exec (.setpixa i r g b a) s = .next t ∧ exec (.setpixa i r' g' b' a') s = .next u ∧
      t.responses = s.responses ++ [x] ∧ u.responses = s.responses ++ [x]) ∧
    (∃ t, exec (.setall r g b) s = .next t ∧ t.responses = s.responses ++ [.ok]) ∧
    (∃ t, exec (.setalla r g b a) s = .next t ∧ t.responses = s.responses ++ [.ok]) ∧
    (∃ t u x, exec (.setbrt i a) s = .next t ∧ exec (.setbrt i a') s = .next u ∧
      t.responses = s.responses ++ [x] ∧ u.responses = s.responses ++ [x])

/-- spec/60_exceptions.md R168: for every fault but IoError the whole state is what it was before the command; only the response
is recorded. -/
def Obligations.FaultsChangeNothing : Prop :=
  ∀ i (s : State) t f, exec i s = .next t → t.responses = s.responses ++ [.fault f] → (∀ p, f ≠ .ioError p) →
    t = { s with responses := s.responses ++ [.fault f] }

/-! ## The transmit -/

/-- spec/41_transmit.md R130, R131, R138: XMIT with an empty slot faults with the least such index and writes nothing; with every
slot valid the sequencer starts at (0, 0, 0), BUSY is set, and nothing else changes. After an INIT the check passes: the
spec's own inference in R131 from R24.
The model's choices in it: log entry 15. -/
def Obligations.XmitChecksThenStarts : Prop :=
  (∀ w, opField w = 0x08#8 → decode w = .op .xmit) ∧ encode .xmit = .command 0x000000000000000000000000000000000008#144 ∧
  (∀ (s : State) n, s.slot n = none → (∀ m, m < n → s.slot m ≠ none) →
    exec .xmit s = .next { s with responses := s.responses ++ [.fault (.pixelNotInitialized n)] }) ∧
  (∀ s : State, (∀ n, s.slot n ≠ none) → ∃ t, exec .xmit s = .next t ∧ t.busy = true ∧
    t = { s with seq := .sending ⟨⟨0, by decide⟩, ⟨0, by decide⟩, .data⟩ }) ∧
  (∀ s t : State, exec .init s = .next t → ∃ u, exec .xmit t = .next u ∧ u.busy = true)

/-- spec/41_transmit.md R136, R138, spec/30_encoding.md R72: in the start frame a write that the port does puts LOW on DAT, or
HIGH or LOW on CLK, by the phase, is recorded, and moves SEQ on by one write.
The model's choices in it: log entry 1. -/
def Obligations.WireStartSendsZeroBits : Prop :=
  ∀ (s : State) p, s.seq = .sending p → p.k.val ≤ 3 → s.portAnswer = .done →
    ∃ q, q.number = p.number + 1 ∧ exec .wireStart s = .next { s with
      seq := .sending q
      trace := s.trace ++ [match p.ph with
        | .data => ⟨.dat, .low⟩ | .clockHigh => ⟨.clk, .high⟩ | .clockLow => ⟨.clk, .low⟩]
      port := s.port.tail
      clk := match p.ph with | .data => s.clk | .clockHigh => .high | .clockLow => .low
      dat := match p.ph with | .data => .low | .clockHigh | .clockLow => s.dat }

/-- spec/41_transmit.md R136, R138, spec/30_encoding.md R73: in byte f of a pixel frame, bit j of that byte on the wire is bit
31 - (8 f + j) of the pattern 111 br b g r; a write that the port does puts it on DAT, or pulses CLK, by the phase.
The model's choices in it: log entry 1. -/
def Obligations.WirePixelSendsItsPattern : Prop :=
  ∀ (s : State) p (n : Fin numPixels) (f : Fin 4) br b g r, s.seq = .sending p → p.k.val = 4 + 4 * n.val + f.val →
    s.portAnswer = .done →
    ∃ q, q.number = p.number + 1 ∧ exec (.wirePixel br b g r) s = .next { s with
      seq := .sending q
      trace := s.trace ++ [match p.ph with
        | .data => ⟨.dat, Level.ofBool ((7#3 ++ br ++ b ++ g ++ r).getLsbD (31 - (8 * f.val + p.j.val)))⟩
        | .clockHigh => ⟨.clk, .high⟩ | .clockLow => ⟨.clk, .low⟩]
      port := s.port.tail
      clk := match p.ph with | .data => s.clk | .clockHigh => .high | .clockLow => .low
      dat := match p.ph with
        | .data => Level.ofBool ((7#3 ++ br ++ b ++ g ++ r).getLsbD (31 - (8 * f.val + p.j.val)))
        | .clockHigh | .clockLow => s.dat }

/-- spec/41_transmit.md R136, R138, R140, spec/30_encoding.md R74: the same for the end frame, whose bits are ones; the write
after which no write of the frame is left (number 887) ends the command: SEQ is idle and the response is OK.
The model's choices in it: log entry 1. -/
def Obligations.WireEndSendsOnesAndCompletes : Prop :=
  ∀ (s : State) p, s.seq = .sending p → p.k.val = 36 → s.portAnswer = .done →
    ∃ t, exec .wireEnd s = .next t ∧
      (p.number < 887 → t.responses = s.responses ∧ ∃ q, t.seq = .sending q ∧ q.number = p.number + 1) ∧
      (p.number = 887 → t.responses = s.responses ++ [.ok] ∧ t.seq = .idle ∧ t.busy = false) ∧
      t = { s with
        seq := t.seq
        responses := t.responses
        trace := s.trace ++ [match p.ph with
          | .data => ⟨.dat, .high⟩ | .clockHigh => ⟨.clk, .high⟩ | .clockLow => ⟨.clk, .low⟩]
        port := s.port.tail
        clk := match p.ph with | .data => s.clk | .clockHigh => .high | .clockLow => .low
        dat := match p.ph with | .data => .high | .clockHigh | .clockLow => s.dat }

/-- spec/10_state.md R28: the order in which SEQ advances, by the number of the write: from 0 up by one to 887, the last of 37
bytes of 8 bits of 3 writes, and a number names one position. -/
def Obligations.SequencerCountsTheWrites : Prop :=
  SeqPos.start.number = 0 ∧ (∀ p : SeqPos, p.number ≤ 887) ∧
  (∀ p q : SeqPos, p.next = some q ↔ q.number = p.number + 1) ∧
  (∀ p : SeqPos, p.next = none ↔ p.number = 887) ∧ (∀ p q : SeqPos, p.number = q.number → p = q)

/-- spec/41_transmit.md R141, spec/60_exceptions.md R164: a write that fails is in the trace, ends the transmit with IoError at
its position, leaves the store and the line that was not written, and no further write follows; the line that was written has
its old level or the new one (a free value: both are allowed).
The model's choices in it: log entry 5. -/
def Obligations.FailedWriteAborts : Prop :=
  ∀ (s : State) p px, s.resetNow = false → s.portStuck = false → s.seq = .sending p → s.Shows px → s.portAnswer = .fail →
    ∃ t, step s = .next t ∧ t.seq = .idle ∧ t.pix = s.pix ∧ t.cmds = s.cmds ∧ t.portStuck = false ∧
      t.responses = s.responses ++ [.fault (.ioError p)] ∧ t.trace = s.trace ++ [p.write (frameByte px p.k)] ∧
      (∀ l, l ≠ (p.write (frameByte px p.k)).line → t.line l = s.line l) ∧
      (∀ l, t.line l = s.line l ∨ t.line l = (p.write (frameByte px p.k)).level)

/-- spec/41_transmit.md R142: a write that never returns is in the trace, and from then on nothing happens until a reset: SEQ
stays, BUSY stays set, no response is given, no command is accepted.
The model's choices in it: log entry 7. -/
def Obligations.StuckWriteHangs : Prop :=
  (∀ (s : State) p px, s.resetNow = false → s.portStuck = false → s.seq = .sending p → s.Shows px → s.portAnswer = .never →
    ∃ t, step s = .next t ∧ t.seq = .sending p ∧ t.busy = true ∧ t.portStuck = true ∧ t.pix = s.pix ∧ t.cmds = s.cmds ∧
      t.responses = s.responses ∧ t.trace = s.trace ++ [p.write (frameByte px p.k)]) ∧
  (∀ (s : State) n, s.portStuck = true → s.NoResetFor n → s.after n = some { s with resetLine := s.resetLine.drop n })

/-- spec/30_encoding.md R71: the byte at each position of the frame. -/
def Obligations.FrameLayout : Prop :=
  ∀ px : Fin numPixels → Pixel, (frameBytesOf px).length = 37 ∧
    (∀ k, k ≤ 3 → (frameBytesOf px)[k]? = some 0x00#8) ∧
    (∀ p : Fin numPixels,
      (frameBytesOf px)[4 + 4 * p.val + 0]? = some (0xE0#8 ||| (px p).br.setWidth 8) ∧
      (frameBytesOf px)[4 + 4 * p.val + 1]? = some (px p).b ∧
      (frameBytesOf px)[4 + 4 * p.val + 2]? = some (px p).g ∧
      (frameBytesOf px)[4 + 4 * p.val + 3]? = some (px p).r) ∧
    (frameBytesOf px)[36]? = some 0xFF#8

/-- spec/30_encoding.md R73, spec/41_transmit.md R133: the four bytes of a pixel, header first, are the 32-bit pattern
111 br b g r, and the header is 0xE0 + br. -/
def Obligations.PixelFramePattern : Prop :=
  ∀ p : Pixel,
    encode (.wirePixel p.br p.b p.g p.r) = .wire32 (7#3 ++ p.br ++ p.b ++ p.g ++ p.r) ∧
    (7#3 ++ p.br ++ p.b ++ p.g ++ p.r : BitVec 32) = p.wireByte 0 ++ p.wireByte 1 ++ p.wireByte 2 ++ p.wireByte 3 ∧
    p.wireByte 0 = 0xE0#8 ||| p.br.setWidth 8 ∧ (p.wireByte 0).toNat = 0xE0 + p.br.toNat ∧
    p.wireByte 1 = p.b ∧ p.wireByte 2 = p.g ∧ p.wireByte 3 = p.r

/-- spec/41_transmit.md R139: a complete transmit is exactly 888 port writes: for each bit n = 0 to 295 in order the data write
of `bit(n)`, clock HIGH, clock LOW. -/
def Obligations.FrameIsThreeWritesPerBit : Prop :=
  ∀ px, (frameEvents px).length = 888 ∧
    ∀ n, n < 296 →
      (frameEvents px)[3 * n]? =
        some ⟨.dat, Level.ofBool ((frameByte px (n / 8)).getLsbD (7 - n % 8))⟩ ∧
      (frameEvents px)[3 * n + 1]? = some ⟨.clk, .high⟩ ∧ (frameEvents px)[3 * n + 2]? = some ⟨.clk, .low⟩

/-- spec/41_transmit.md R138, R139, R140, R134: an XMIT that is accepted with every slot valid, by a port that does every write
and without a reset, ends after one step and 888 port writes: the trace has grown by exactly the frame of the store, SEQ is
idle, CLK is LOW, DAT is HIGH, the response is OK, and the store is unchanged.
The model's choices in it: log entries 4, 8, 9, 15, 19. -/
def Obligations.TransmitSendsTheFrame : Prop :=
  ∀ (s : State) px w rest, s.Shows px → s.seq = .idle → s.portStuck = false → s.cmds = w :: rest → decode w = .op .xmit →
    s.PortDoneFor 888 → s.NoResetFor 889 →
    s.after 889 = some { s with
      cmds := rest, accepted := s.accepted + 1, seq := .idle, clk := .low, dat := .high, trace := s.trace ++ frameEvents px,
      responses := s.responses ++ [.ok], port := s.port.drop 888, resetLine := s.resetLine.drop 889 }

/-- spec/41_transmit.md R144, spec/20_memory.md R58: two XMIT commands with no write between them emit the same events, and the
second gives the store and the levels that the first gave.
The model's choices in it: log entries 4, 8, 9, 15. -/
def Obligations.RepeatedTransmitSendsTheSame : Prop :=
  ∀ (s : State) px v w rest, s.Shows px → s.seq = .idle → s.portStuck = false → s.cmds = v :: w :: rest →
    decode v = .op .xmit → decode w = .op .xmit → s.PortDoneFor 1776 → s.NoResetFor 1778 →
    ∃ t u es, s.after 889 = some t ∧ t.after 889 = some u ∧ t.trace = s.trace ++ es ∧ u.trace = t.trace ++ es ∧
      es.length = 888 ∧ u.pix = s.pix ∧ u.clk = t.clk ∧ u.dat = t.dat

/-- spec/41_transmit.md R136, R139, R143, spec/70_reset_and_hazards.md R194: the bits of the frame are what a receiver samples at the rising
edges if CLK is LOW at the start, and at the falling edges whatever CLK is at the start; if CLK is HIGH at the start the
rising edges miss the first bit. The levels of the lines at the start are otherwise of no matter. R143 is the spec's own inference from R136 and R139, and says the
falling edges of a transmit that starts with CLK LOW alone; that they sample every bit from a HIGH clock too follows from R136
and R139. The frame is that of a transmit whose writes are all done.
The model's choices in it: log entry 20. -/
def Obligations.SampledStream : Prop :=
  ∀ px dat,
    sampledBits .low dat (frameEvents px) = (List.range 296).map (fun n => Level.ofBool (frameBit px n)) ∧
    (∀ clk, fallingBits clk dat (frameEvents px) = (List.range 296).map (fun n => Level.ofBool (frameBit px n))) ∧
    sampledBits .high dat (frameEvents px) = ((List.range 296).map (fun n => Level.ofBool (frameBit px n))).tail

/-! ## The whole machine -/

/-- The state after reset satisfies the invariant of `StepKeepsTheInvariant`. -/
def Obligations.ResetHasTheInvariant : Prop :=
  State.reset.Inv

/-- spec/41_transmit.md R131, R134, R136, R138, R141, R142, spec/60_exceptions.md R168: from every state with the invariant the step
answers a next state, never a fault or a refusal, and that state has the invariant: whatever the host and the port do, the
trace of a running transmit ends with exactly the writes of the frame of the store that come before SEQ, every slot is valid,
and the lines agree with SEQ.
The model's choices in it: log entries 7, 10, 13. -/
def Obligations.StepKeepsTheInvariant : Prop :=
  ∀ s : State, s.Inv → ∃ t, step s = .next t ∧ t.Inv

/-- spec/10_state.md R21, R24, spec/70_reset_and_hazards.md R190: once a slot is valid it stays valid until a reset: no other step
makes it empty. -/
def Obligations.ValidUntilReset : Prop :=
  ∀ (s : State) t n, s.resetNow = false → step s = .next t → s.valid n = true → t.valid n = true

/-- spec/20_memory.md R57, spec/41_transmit.md R134: the store does not change while a transmit runs, unless the block is
reset. -/
def Obligations.StoreIsConstantWhileBusy : Prop :=
  ∀ (s : State) t, s.resetNow = false → s.busy = true → step s = .next t → t.pix = s.pix

/-- spec/00_scope.md R8, spec/70_reset_and_hazards.md R203: no event is ever taken back: a step adds at most one event to the
observation, and at most one response. It holds at a reset because the model keeps the responses there and moves the trace to
`earlier`.
The model's choices in it: log entries 9, 10. -/
def Obligations.RecordOnlyGrows : Prop :=
  ∀ (s : State) t, step s = .next t →
    (∃ es, t.observed = s.observed ++ es ∧ es.length ≤ 1) ∧ (∃ rs, t.responses = s.responses ++ rs ∧ rs.length ≤ 1)

/-- spec/70_reset_and_hazards.md R202, spec/10_state.md R30, spec/40_pixel_store_ops.md R100, spec/41_transmit.md R131, R138,
spec/60_exceptions.md R166: only a transmit writes the port: a step of an idle block that is not reset makes no event and
moves no line, whether it waits, answers a reserved opcode, runs a pixel store command or accepts an XMIT.
The model's choices in it: log entries 8, 9, 15. -/
def Obligations.OnlyTransmitsWriteThePort : Prop :=
  ∀ (s : State) t, s.resetNow = false → s.seq = .idle → step s = .next t →
    t.trace = s.trace ∧ t.earlier = s.earlier ∧ t.clk = s.clk ∧ t.dat = s.dat ∧ t.port = s.port

/-- spec/00_scope.md R6, spec/41_transmit.md R139: what a step writes does not depend on what was sent before or on the levels of
the lines: two states that differ only in the trace, the record and the line levels, and whose port does the write, make the
same event and keep the same store and position. -/
def Obligations.EventsIgnoreTheLinesAndTheRecord : Prop :=
  ∀ (s : State) clk dat trace earlier responses accepted t, step s = .next t → s.portAnswer = .done → s.resetNow = false →
    ∃ u, step { s with
        clk := clk, dat := dat, trace := trace, earlier := earlier, responses := responses, accepted := accepted } = .next u ∧
      u.pix = t.pix ∧ u.seq = t.seq ∧ (∃ es, t.trace = s.trace ++ es ∧ u.trace = trace ++ es) ∧
      (∃ rs, t.responses = s.responses ++ rs ∧ u.responses = responses ++ rs)

/-- spec/70_reset_and_hazards.md R204, spec/60_exceptions.md R161: a run ends. From an idle block with the invariant, if every port
write returns and the host does not reset, after at most 889 steps a word every word presented is accepted and has exactly
one response, and then SEQ is idle and BUSY is 0: the run is over, if no word of before it is without a response.
The model's choices in it: log entries 4, 8, 9, 15, 19. -/
def Obligations.EveryRunEndsIfEveryWriteReturns : Prop :=
  ∀ s : State, s.Inv → s.seq = .idle → PortOutcome.never ∉ s.port → true ∉ s.resetLine →
    ∃ n t, n ≤ 889 * s.cmds.length ∧ s.after n = some t ∧ t.cmds = [] ∧ t.seq = .idle ∧ t.busy = false ∧
      t.accepted = s.accepted + s.cmds.length ∧ t.responses.length = s.responses.length + s.cmds.length ∧
      (s.responses.length = s.accepted → t.over)

/-- spec/60_exceptions.md R172, spec/20_memory.md R63: a step leaves the words presented, or takes exactly the first of them, and
that only when the command port is ready; no other word is lost, moved or taken twice. That a reset keeps the words that wait
is the model's choice.
The model's choices in it: log entries 8, 9, 19. -/
def Obligations.WordsAreTakenInOrder : Prop :=
  ∀ s t : State, step s = .next t →
    (t.cmds = s.cmds ∧ t.accepted = s.accepted) ∨
    (∃ w, s.cmds = w :: t.cmds ∧ t.accepted = s.accepted + 1 ∧ s.ready = true ∧ s.resetNow = false)

/-- spec/60_exceptions.md R161, spec/70_reset_and_hazards.md R204: every accepted word gets exactly one response. A step that is not
a reset keeps the number of accepted words that neither run nor have a response; a reset gives no response, and a transmit
that runs stops running. So that every response and a running transmit belong to an accepted word is an invariant, which the
reset state has.
The model's choices in it: log entries 9, 11, 15, 19. -/
def Obligations.ResponsesMatchAcceptedWords : Prop :=
  State.reset.Counted ∧
  (∀ s t : State, s.resetNow = false → step s = .next t →
    t.responses.length + t.running + s.accepted = s.responses.length + s.running + t.accepted) ∧
  (∀ s t : State, s.resetNow = true → step s = .next t →
    t.responses = s.responses ∧ t.running = 0 ∧ t.accepted = s.accepted) ∧
  (∀ s t : State, s.Counted → step s = .next t → t.Counted)

/-- spec/70_reset_and_hazards.md R204, R203: a run in which a reset cuts off a transmit is never over, whatever follows: the XMIT
has no response and gets none. The premise on the counts is the invariant of `ResponsesMatchAcceptedWords`.
The model's choices in it: log entries 9, 19. -/
def Obligations.RunCutOffIsNeverOver : Prop :=
  ∀ s : State, s.Counted → s.busy = true → s.resetNow = true → ∀ n t, s.after (n + 1) = some t → ¬ t.over
end

