-- ==== Sys2Proof/Laws/Decode.lean ====
section
/-! SUPPORT. Lemmas of the command word's fields and of decoding by the opcode. -/

namespace Sys2Proof

/-- The bits of a packed command word, field by field (R76). -/
theorem getLsbD_pack (op idx : Byte) (r g b a : Field) (n : Nat) :
    (packCommand op idx r g b a).getLsbD n =
      if n < 8 then op.getLsbD n else if n < 16 then idx.getLsbD (n - 8) else if n < 48 then r.getLsbD (n - 16)
      else if n < 80 then g.getLsbD (n - 48) else if n < 112 then b.getLsbD (n - 80) else a.getLsbD (n - 112) := by
  have h : (packCommand op idx r g b a).getLsbD n =
      (a ++ b ++ g ++ r ++ idx ++ op : BitVec (32 + 32 + 32 + 32 + 8 + 8)).getLsbD n := rfl
  have e1 : n - 8 < 8 ↔ n < 16 ∨ n < 8 := by omega
  have e2 : n - 8 - 8 < 32 ↔ n < 48 := by omega
  have e3 : n - 8 - 8 - 32 < 32 ↔ n < 80 := by omega
  have e4 : n - 8 - 8 - 32 - 32 < 32 ↔ n < 112 := by omega
  have e5 : n - 8 - 8 = n - 16 := by omega
  have e6 : n - 16 - 32 = n - 48 := by omega
  have e7 : n - 48 - 32 = n - 80 := by omega
  have e8 : n - 80 - 32 = n - 112 := by omega
  rw [h]
  simp only [BitVec.getLsbD_append]
  split_ifs <;> first | omega | rfl

@[simp] theorem opField_pack (op idx : Byte) (r g b a : Field) : opField (packCommand op idx r g b a) = op := by
  apply BitVec.eq_of_getLsbD_eq
  intro n hn
  simp only [opField, BitVec.getLsbD_extractLsb', getLsbD_pack, hn, decide_true, Bool.true_and]
  split_ifs <;> first | omega | (congr 1; omega)

@[simp] theorem idxField_pack (op idx : Byte) (r g b a : Field) : idxField (packCommand op idx r g b a) = idx := by
  apply BitVec.eq_of_getLsbD_eq
  intro n hn
  simp only [idxField, BitVec.getLsbD_extractLsb', getLsbD_pack, hn, decide_true, Bool.true_and]
  split_ifs <;> first | omega | (congr 1; omega)

@[simp] theorem redField_pack (op idx : Byte) (r g b a : Field) : redField (packCommand op idx r g b a) = r := by
  apply BitVec.eq_of_getLsbD_eq
  intro n hn
  simp only [redField, BitVec.getLsbD_extractLsb', getLsbD_pack, hn, decide_true, Bool.true_and]
  split_ifs <;> first | omega | (congr 1; omega)

@[simp] theorem greenField_pack (op idx : Byte) (r g b a : Field) : greenField (packCommand op idx r g b a) = g := by
  apply BitVec.eq_of_getLsbD_eq
  intro n hn
  simp only [greenField, BitVec.getLsbD_extractLsb', getLsbD_pack, hn, decide_true, Bool.true_and]
  split_ifs <;> first | omega | (congr 1; omega)

@[simp] theorem blueField_pack (op idx : Byte) (r g b a : Field) : blueField (packCommand op idx r g b a) = b := by
  apply BitVec.eq_of_getLsbD_eq
  intro n hn
  simp only [blueField, BitVec.getLsbD_extractLsb', getLsbD_pack, hn, decide_true, Bool.true_and]
  split_ifs <;> first | omega | (congr 1; omega)

@[simp] theorem brightField_pack (op idx : Byte) (r g b a : Field) : brightField (packCommand op idx r g b a) = a := by
  apply BitVec.eq_of_getLsbD_eq
  intro n hn
  simp only [brightField, BitVec.getLsbD_extractLsb', getLsbD_pack, hn, decide_true, Bool.true_and]
  split_ifs <;> first | omega | (congr 1; omega)

/-- A command word is its six fields put together (R76). -/
theorem pack_fields (w : CmdWord) :
    packCommand (opField w) (idxField w) (redField w) (greenField w) (blueField w) (brightField w) = w := by
  apply BitVec.eq_of_getLsbD_eq
  intro n hn
  rw [getLsbD_pack]
  simp only [opField, idxField, redField, greenField, blueField, brightField, BitVec.getLsbD_extractLsb']
  split_ifs <;> (rw [decide_eq_true (by omega), Bool.true_and]; congr 1; omega)

theorem pack_inj {op idx op' idx' : Byte} {r g b a r' g' b' a' : Field} :
    packCommand op idx r g b a = packCommand op' idx' r' g' b' a' ↔
      op = op' ∧ idx = idx' ∧ r = r' ∧ g = g' ∧ b = b' ∧ a = a' := by
  constructor
  · intro h
    refine ⟨?_, ?_, ?_, ?_, ?_, ?_⟩
    · simpa using congrArg opField h
    · simpa using congrArg idxField h
    · simpa using congrArg redField h
    · simpa using congrArg greenField h
    · simpa using congrArg blueField h
    · simpa using congrArg brightField h
  · rintro ⟨rfl, rfl, rfl, rfl, rfl, rfl⟩; rfl

@[simp] theorem indexValue_ofInt (i : Int) (h : indexFits i = true) : indexValue (BitVec.ofInt 8 i) = i := by
  simp only [indexFits, decide_eq_true_eq] at h
  unfold indexValue
  rw [BitVec.toNat_ofInt]
  omega

@[simp] theorem ofInt_indexValue (f : Byte) : BitVec.ofInt 8 (indexValue f) = f := by
  unfold indexValue
  simp

theorem indexFits_indexValue (f : Byte) : indexFits (indexValue f) = true := by
  have := f.isLt
  unfold indexFits indexValue
  rw [decide_eq_true_eq]
  omega

/-- Which operation a word decodes to, by its opcode (R77, R80). -/
theorem decode_cases (w : CmdWord) :
    (opField w = 0x01#8 ∧ decode w = .op .init) ∨
    (opField w = 0x02#8 ∧ decode w = .op (.setpix (indexValue (idxField w)) (fieldValue (redField w))
      (fieldValue (greenField w)) (fieldValue (blueField w)))) ∨
    (opField w = 0x03#8 ∧ decode w = .op (.setpixa (indexValue (idxField w)) (fieldValue (redField w))
      (fieldValue (greenField w)) (fieldValue (blueField w)) (fieldValue (brightField w)))) ∨
    (opField w = 0x04#8 ∧ decode w = .op (.setall (fieldValue (redField w)) (fieldValue (greenField w))
      (fieldValue (blueField w)))) ∨
    (opField w = 0x05#8 ∧ decode w = .op (.setalla (fieldValue (redField w)) (fieldValue (greenField w))
      (fieldValue (blueField w)) (fieldValue (brightField w)))) ∨
    (opField w = 0x06#8 ∧ decode w = .op (.setbrt (indexValue (idxField w)) (fieldValue (brightField w)))) ∨
    (opField w = 0x07#8 ∧ decode w = .op .clear) ∨
    (opField w = 0x08#8 ∧ decode w = .op .xmit) ∨
    ((opField w = 0x00#8 ∨ 0x09#8 ≤ opField w) ∧ decode w = .illegal (opField w)) := by
  have hw := (opField w).isLt
  unfold decode
  split
  all_goals rename_i h
  all_goals simp only [BitVec.toNat_eq, BitVec.le_def]
  · simp [h]
  · simp [h]
  · simp [h]
  · simp [h]
  · simp [h]
  · simp [h]
  · simp [h]
  · simp [h]
  · right; right; right; right; right; right; right; right
    refine ⟨?_, trivial⟩
    change (opField w).toNat = 0 ∨ 9 ≤ (opField w).toNat
    by_contra hc
    have h8 : (opField w).toNat = 1 ∨ (opField w).toNat = 2 ∨ (opField w).toNat = 3 ∨ (opField w).toNat = 4 ∨
        (opField w).toNat = 5 ∨ (opField w).toNat = 6 ∨ (opField w).toNat = 7 ∨ (opField w).toNat = 8 := by
      clear h
      omega
    simp_all

/-- The bits of a pixel frame, field by field (R73). -/
theorem getLsbD_pixelWord (br : Bright) (b g r : Byte) (n : Nat) :
    (pixelWord br b g r).getLsbD n =
      if n < 8 then r.getLsbD n else if n < 16 then g.getLsbD (n - 8) else if n < 24 then b.getLsbD (n - 16)
      else if n < 29 then br.getLsbD (n - 24) else (7#3).getLsbD (n - 29) := by
  have h : (pixelWord br b g r).getLsbD n = (7#3 ++ br ++ b ++ g ++ r : BitVec (3 + 5 + 8 + 8 + 8)).getLsbD n := rfl
  have e1 : n - 8 - 8 = n - 16 := by omega
  have e2 : n - 16 - 8 = n - 24 := by omega
  have e3 : n - 24 - 5 = n - 29 := by omega
  rw [h]
  simp only [BitVec.getLsbD_append, e1, e2, e3]
  split_ifs <;> first | omega | rfl

@[simp] theorem extract_header_pixelWord (br : Bright) (b g r : Byte) : (pixelWord br b g r).extractLsb' 29 3 = 7#3 := by
  apply BitVec.eq_of_getLsbD_eq
  intro n hn
  simp only [BitVec.getLsbD_extractLsb', getLsbD_pixelWord, hn, decide_true, Bool.true_and]
  split_ifs <;> first | omega | (congr 1; omega)

@[simp] theorem extract_bright_pixelWord (br : Bright) (b g r : Byte) : (pixelWord br b g r).extractLsb' 24 5 = br := by
  apply BitVec.eq_of_getLsbD_eq
  intro n hn
  simp only [BitVec.getLsbD_extractLsb', getLsbD_pixelWord, hn, decide_true, Bool.true_and]
  split_ifs <;> first | omega | (congr 1; omega)

@[simp] theorem extract_blue_pixelWord (br : Bright) (b g r : Byte) : (pixelWord br b g r).extractLsb' 16 8 = b := by
  apply BitVec.eq_of_getLsbD_eq
  intro n hn
  simp only [BitVec.getLsbD_extractLsb', getLsbD_pixelWord, hn, decide_true, Bool.true_and]
  split_ifs <;> first | omega | (congr 1; omega)

@[simp] theorem extract_green_pixelWord (br : Bright) (b g r : Byte) : (pixelWord br b g r).extractLsb' 8 8 = g := by
  apply BitVec.eq_of_getLsbD_eq
  intro n hn
  simp only [BitVec.getLsbD_extractLsb', getLsbD_pixelWord, hn, decide_true, Bool.true_and]
  split_ifs <;> first | omega | (congr 1; omega)

@[simp] theorem extract_red_pixelWord (br : Bright) (b g r : Byte) : (pixelWord br b g r).extractLsb' 0 8 = r := by
  apply BitVec.eq_of_getLsbD_eq
  intro n hn
  simp only [BitVec.getLsbD_extractLsb', getLsbD_pixelWord, hn, decide_true, Bool.true_and]
  split_ifs <;> first | omega | (congr 1; omega)

theorem pixelWord_ne_zero (br : Bright) (b g r : Byte) : pixelWord br b g r ≠ 0#32 := by
  intro h
  have h2 := extract_header_pixelWord br b g r
  rw [h] at h2
  exact absurd h2 (by decide)

/-- A 32-bit word whose first three bits on the wire are ones is the pixel frame of its fields (R73). -/
theorem pixelWord_fields (w : BitVec 32) (h : w.extractLsb' 29 3 = 7#3) :
    pixelWord (w.extractLsb' 24 5) (w.extractLsb' 16 8) (w.extractLsb' 8 8) (w.extractLsb' 0 8) = w := by
  apply BitVec.eq_of_getLsbD_eq
  intro n hn
  rw [getLsbD_pixelWord, ← h]
  simp only [BitVec.getLsbD_extractLsb']
  split_ifs <;> (rw [decide_eq_true (by omega), Bool.true_and]; congr 1; omega)

/-- A pixel frame is read as what it was written from. -/
@[simp] theorem decodeWire32_pixelWord (br : Bright) (b g r : Byte) :
    decodeWire32 (pixelWord br b g r) = some (.wirePixel br b g r) := by
  simp [decodeWire32, pixelWord_ne_zero]

end Sys2Proof
end

