-- ==== Sys2Proof/Laws/Operands.lean ====
section
/-! SUPPORT. The arithmetic of the operands, from numerators and denominators to rationals and to the command field. -/

namespace Sys2Proof.Machine
open Sys2Proof.Config

/-- Truncation of a fraction is integer division toward zero, whether or not it is in lowest terms. -/
theorem trunc_of_fraction (q : Rat) (n : Int) (d : Nat) (hd : 0 < d) (h : n * q.den = q.num * d) :
    trunc q = n.tdiv d := by
  have h1 : (0 : Int) < q.den := by exact_mod_cast q.den_pos
  have h2 : (0 : Int) < d := by exact_mod_cast hd
  unfold trunc
  rw [← Int.mul_tdiv_mul_of_pos q.num q.den h2, ← Int.mul_tdiv_mul_of_pos n d h1, mul_comm (d : Int) q.num, ← h,
    mul_comm (d : Int) q.den, mul_comm n]

theorem mkRat_cross (n : Int) (d : Nat) (hd : 0 < d) : n * (mkRat n d).den = (mkRat n d).num * d := by
  have h : mkRat (mkRat n d).num (mkRat n d).den = mkRat n d := Rat.mkRat_self _
  exact ((Rat.mkRat_eq_iff (mkRat n d).den_nz (by omega)).mp h).symm

theorem trunc_mkRat (n : Int) (d : Nat) (hd : 0 < d) : trunc (mkRat n d) = n.tdiv d :=
  trunc_of_fraction _ _ _ hd (mkRat_cross n d hd)

theorem cross_of_eq_div (q : Rat) (n : Int) (d : Nat) (hd : 0 < d) (h : q = n / d) : n * q.den = q.num * d := by
  have := Rat.mkRat_eq_div n d
  rw [h, ← Rat.mkRat_eq_div]
  exact mkRat_cross n d hd

theorem truncMul_eq_trunc (n : Int) (q : Rat) : truncMul n q = trunc (n * q) := by
  unfold truncMul
  refine (trunc_of_fraction _ _ _ q.den_pos (cross_of_eq_div _ _ _ q.den_pos ?_)).symm
  push_cast
  rw [mul_div_assoc, Rat.num_div_den]

theorem trunc_of_nonneg (q : Rat) (h : 0 ≤ q) : trunc q = ⌊q⌋ := by
  unfold trunc
  rw [Int.tdiv_eq_ediv_of_nonneg (Rat.num_nonneg.mpr h)]
  exact (Rat.floor_def q).symm

theorem trunc_neg (q : Rat) : trunc (-q) = -trunc q := by
  simp [trunc, Int.neg_tdiv]

theorem trunc_of_nonpos (q : Rat) (h : q ≤ 0) : trunc q = -⌊-q⌋ := by
  rw [← trunc_of_nonneg (-q) (by linarith), trunc_neg, neg_neg]

/-- Everything strictly between -1 and 1 goes to 0 (R101). -/
theorem trunc_small {v : Rat} (h1 : -1 < v) (h2 : v < 1) : trunc v = 0 := by
  rcases le_total 0 v with h | h
  · rw [trunc_of_nonneg v h]; exact Int.floor_eq_zero_iff.mpr ⟨h, h2⟩
  · rw [trunc_of_nonpos v h, neg_eq_zero]; exact Int.floor_eq_zero_iff.mpr ⟨by linarith, by linarith⟩

theorem trunc_intCast (n : Int) : trunc (n : Rat) = n := by
  simp [trunc]

theorem col8_toNat (v : Rat) : ((col8 v).toNat : Int) = trunc v % 256 := by
  unfold col8
  rw [BitVec.toNat_ofInt]
  have : (0 : Int) ≤ trunc v % colourModulus := Int.emod_nonneg _ (by decide)
  have h2 : trunc v % colourModulus < 256 := Int.emod_lt_of_pos _ (by decide)
  rw [Int.emod_eq_of_lt (by simpa) (by simpa using h2)]
  exact Int.toNat_of_nonneg this

theorem brt5_toNat (v : Rat) : ((brt5 v).toNat : Int) = truncMul 31 v % 32 := by
  unfold brt5
  rw [BitVec.toNat_ofInt]
  have : (0 : Int) ≤ truncMul brightScale v % brightModulus := Int.emod_nonneg _ (by decide)
  have h2 : truncMul brightScale v % brightModulus < 32 := Int.emod_lt_of_pos _ (by decide)
  rw [Int.emod_eq_of_lt (by simpa) (by simpa using h2)]
  exact Int.toNat_of_nonneg this

theorem col8_congr {v w : Rat} (h : trunc v % 256 = trunc w % 256) : col8 v = col8 w := by
  apply BitVec.eq_of_toNat_eq
  have := col8_toNat v
  have := col8_toNat w
  omega

theorem brt5_congr {v w : Rat} (h : trunc (31 * v) % 32 = trunc (31 * w) % 32) : brt5 v = brt5 w := by
  apply BitVec.eq_of_toNat_eq
  have h1 := brt5_toNat v
  have h2 := brt5_toNat w
  rw [truncMul_eq_trunc] at h1 h2
  norm_num at h1 h2
  omega

theorem fieldValue_eq_div (f : Field) : fieldValue f = (f.toInt : Rat) / 65536 := by
  unfold fieldValue
  rw [Rat.mkRat_eq_div]; rfl

theorem trunc_fieldValue (f : Field) : trunc (fieldValue f) = f.toInt.tdiv 65536 :=
  trunc_mkRat _ _ (by decide)

theorem truncMul_fieldValue (n : Int) (f : Field) : truncMul n (fieldValue f) = (n * f.toInt).tdiv 65536 := by
  rw [truncMul_eq_trunc]
  refine trunc_of_fraction _ _ 65536 (by decide) (cross_of_eq_div _ _ _ (by decide) ?_)
  rw [fieldValue_eq_div]; push_cast; ring

end Sys2Proof.Machine

namespace Sys2Proof

theorem roundHalfEven_near (n : Int) (d : Nat) (hd : 0 < d) :
    -(d : Int) ≤ 2 * (n - roundHalfEven n d * d) ∧ 2 * (n - roundHalfEven n d * d) ≤ d := by
  have h1 := Int.emod_add_mul_ediv n d
  have h2 := Int.emod_nonneg n (b := d) (by omega)
  have h3 := Int.emod_lt_of_pos n (b := d) (by omega)
  have e1 : n - n / d * d = n % d := by linarith [mul_comm (n / (d : Int)) d]
  have e2 : n - (n / d + 1) * d = n % d - d := by linarith [mul_comm (n / (d : Int)) d, add_mul (n / (d:Int)) 1 d]
  unfold roundHalfEven
  simp only
  split_ifs <;> first | rw [e1] | rw [e2]
  all_goals constructor <;> omega

theorem roundHalfEven_of_dvd (n : Int) (d : Nat) (hd : 0 < d) (h : n % d = 0) : roundHalfEven n d = n / d := by
  unfold roundHalfEven
  simp only [h]
  rw [if_pos (by omega)]

/-- The rounded units are within half a unit of the number. -/
theorem fieldUnits_near (v : Rat) : |(fieldUnits v : Rat) - v * 65536| ≤ 1 / 2 := by
  have hd : (0 : Rat) < v.den := by exact_mod_cast v.den_pos
  have hv : v * v.den = v.num := Rat.mul_den_eq_num v
  obtain ⟨h1, h2⟩ := roundHalfEven_near (v.num * Config.fracUnit) v.den v.den_pos
  unfold fieldUnits
  generalize roundHalfEven _ _ = r at *
  have h1' : -(v.den : Rat) ≤ 2 * (v.num * 65536 - r * v.den) := by exact_mod_cast h1
  have h2' : 2 * (v.num * 65536 - r * v.den) ≤ (v.den : Rat) := by exact_mod_cast h2
  rw [← hv] at h1' h2'
  rw [abs_le]
  constructor
  · by_contra hc
    have := mul_pos_of_neg_of_neg (a := (r : Rat) - v * 65536 + 1/2) (b := -(v.den : Rat)) (by linarith) (by linarith)
    nlinarith
  · by_contra hc
    have := mul_pos (a := (r : Rat) - v * 65536 - 1/2) (b := (v.den : Rat)) (by linarith) (by linarith)
    nlinarith

theorem fieldUnits_exact (v : Rat) (n : Int) (h : v * 65536 = n) : fieldUnits v = n := by
  have h1 := fieldUnits_near v
  rw [h, abs_le] at h1
  have h2 : ((fieldUnits v - n : Int) : Rat) < 1 := by push_cast; linarith
  have h3 : (-1 : Rat) < ((fieldUnits v - n : Int) : Rat) := by push_cast; linarith
  have h2' : fieldUnits v - n < 1 := by exact_mod_cast h2
  have h3' : -1 < fieldUnits v - n := by exact_mod_cast h3
  omega

theorem fieldValue_fieldOf (v : Rat) (h1 : -2147483648 ≤ fieldUnits v) (h2 : fieldUnits v < 2147483648) :
    fieldValue (fieldOf v) = (fieldUnits v : Rat) / 65536 := by
  rw [Machine.fieldValue_eq_div]
  unfold fieldOf
  rw [BitVec.toInt_ofInt_eq_self (by decide) (by simpa using h1) (by simpa using h2)]

/-- What `numberFits` says, in rationals. -/
theorem numberFits_iff (v : Rat) :
    numberFits v = true ↔ ∃ n : Int, v * 65536 = n ∧ -2147483648 ≤ n ∧ n < 2147483648 := by
  have hd : (0 : Rat) < v.den := by exact_mod_cast v.den_pos
  have hv : v * v.den = v.num := Rat.mul_den_eq_num v
  unfold numberFits
  simp only [decide_eq_true_eq]
  constructor
  · rintro ⟨h, h1, h2⟩
    refine ⟨_, ?_, h1, h2⟩
    have h3 := Int.ediv_mul_cancel (Int.dvd_of_emod_eq_zero h)
    generalize v.num * ↑Config.fracUnit / ↑v.den = q at *
    have h4 : (q : Rat) * v.den = v.num * 65536 := by exact_mod_cast h3
    rw [← hv] at h4
    have := mul_right_cancel₀ hd.ne' (h4.trans (by ring : v * v.den * 65536 = v * 65536 * v.den))
    exact this.symm
  · rintro ⟨n, h, h1, h2⟩
    have h3 : v.num * (Config.fracUnit : Int) = n * v.den := by
      have : (v.num : Rat) * 65536 = n * v.den := by rw [← hv, ← h]; ring
      exact_mod_cast this
    have hd' : (v.den : Int) ≠ 0 := by exact_mod_cast v.den_nz
    rw [h3, Int.mul_emod_left, Int.mul_ediv_cancel _ hd']
    exact ⟨rfl, h1, h2⟩

theorem numberFits_fieldValue (f : Field) : numberFits (fieldValue f) = true := by
  rw [numberFits_iff]
  refine ⟨f.toInt, by rw [Machine.fieldValue_eq_div]; ring, ?_, ?_⟩
  · have := BitVec.le_toInt f; simpa using this
  · have := BitVec.toInt_lt (x := f); simpa using this

theorem fieldOf_fieldValue (f : Field) : fieldOf (fieldValue f) = f := by
  unfold fieldOf
  rw [fieldUnits_exact (fieldValue f) f.toInt (by rw [Machine.fieldValue_eq_div]; ring), BitVec.ofInt_toInt]

theorem fieldValue_of_fits (v : Rat) (h : numberFits v = true) : fieldValue (fieldOf v) = v := by
  obtain ⟨n, h1, h2, h3⟩ := (numberFits_iff v).mp h
  have := fieldUnits_exact v n h1
  rw [fieldValue_fieldOf v (by omega) (by omega), this, ← h1]; ring

end Sys2Proof
end

