-- ==== Sys2Proof/Laws/State.lean ====
section
/-! SUPPORT. What each update of the state does to each field. -/

namespace Sys2Proof.Machine

open Sys2Proof.Config

/-! ## Responding -/

@[simp] theorem State.respond_pix (s : State) (r : Response) : (s.respond r).pix = s.pix :=
  rfl
@[simp] theorem State.respond_seq (s : State) (r : Response) : (s.respond r).seq = s.seq :=
  rfl
@[simp] theorem State.respond_clk (s : State) (r : Response) : (s.respond r).clk = s.clk :=
  rfl
@[simp] theorem State.respond_dat (s : State) (r : Response) : (s.respond r).dat = s.dat :=
  rfl
@[simp] theorem State.respond_trace (s : State) (r : Response) : (s.respond r).trace = s.trace :=
  rfl
@[simp] theorem State.respond_earlier (s : State) (r : Response) : (s.respond r).earlier = s.earlier :=
  rfl
@[simp] theorem State.respond_responses (s : State) (r : Response) : (s.respond r).responses = s.responses ++ [r] :=
  rfl
@[simp] theorem State.respond_accepted (s : State) (r : Response) : (s.respond r).accepted = s.accepted :=
  rfl
@[simp] theorem State.respond_cmds (s : State) (r : Response) : (s.respond r).cmds = s.cmds :=
  rfl
@[simp] theorem State.respond_port (s : State) (r : Response) : (s.respond r).port = s.port :=
  rfl
@[simp] theorem State.respond_resetLine (s : State) (r : Response) : (s.respond r).resetLine = s.resetLine :=
  rfl
@[simp] theorem State.respond_portStuck (s : State) (r : Response) : (s.respond r).portStuck = s.portStuck :=
  rfl
@[simp] theorem State.respond_draws (s : State) (r : Response) : (s.respond r).draws = s.draws :=
  rfl

/-! ## Writing slots -/

@[simp] theorem State.writeSlot_pix (s : State) (i : Fin numPixels) (p : Pixel) : (s.writeSlot i p).pix = s.pix.set i (some p) :=
  rfl
@[simp] theorem State.writeSlot_seq (s : State) (i : Fin numPixels) (p : Pixel) : (s.writeSlot i p).seq = s.seq :=
  rfl
@[simp] theorem State.writeSlot_clk (s : State) (i : Fin numPixels) (p : Pixel) : (s.writeSlot i p).clk = s.clk :=
  rfl
@[simp] theorem State.writeSlot_dat (s : State) (i : Fin numPixels) (p : Pixel) : (s.writeSlot i p).dat = s.dat :=
  rfl
@[simp] theorem State.writeSlot_trace (s : State) (i : Fin numPixels) (p : Pixel) : (s.writeSlot i p).trace = s.trace :=
  rfl
@[simp] theorem State.writeSlot_earlier (s : State) (i : Fin numPixels) (p : Pixel) : (s.writeSlot i p).earlier = s.earlier :=
  rfl
@[simp] theorem State.writeSlot_responses (s : State) (i : Fin numPixels) (p : Pixel) : (s.writeSlot i p).responses = s.responses :=
  rfl
@[simp] theorem State.writeSlot_accepted (s : State) (i : Fin numPixels) (p : Pixel) : (s.writeSlot i p).accepted = s.accepted :=
  rfl
@[simp] theorem State.writeSlot_cmds (s : State) (i : Fin numPixels) (p : Pixel) : (s.writeSlot i p).cmds = s.cmds :=
  rfl
@[simp] theorem State.writeSlot_port (s : State) (i : Fin numPixels) (p : Pixel) : (s.writeSlot i p).port = s.port :=
  rfl
@[simp] theorem State.writeSlot_resetLine (s : State) (i : Fin numPixels) (p : Pixel) : (s.writeSlot i p).resetLine = s.resetLine :=
  rfl
@[simp] theorem State.writeSlot_portStuck (s : State) (i : Fin numPixels) (p : Pixel) : (s.writeSlot i p).portStuck = s.portStuck :=
  rfl
@[simp] theorem State.writeSlot_draws (s : State) (i : Fin numPixels) (p : Pixel) : (s.writeSlot i p).draws = s.draws :=
  rfl

@[simp] theorem State.writeAll_pix (s : State) (f : Option Pixel → Pixel) : (s.writeAll f).pix = Vector.ofFn fun i => some (f (s.slot i)) :=
  rfl
@[simp] theorem State.writeAll_seq (s : State) (f : Option Pixel → Pixel) : (s.writeAll f).seq = s.seq :=
  rfl
@[simp] theorem State.writeAll_clk (s : State) (f : Option Pixel → Pixel) : (s.writeAll f).clk = s.clk :=
  rfl
@[simp] theorem State.writeAll_dat (s : State) (f : Option Pixel → Pixel) : (s.writeAll f).dat = s.dat :=
  rfl
@[simp] theorem State.writeAll_trace (s : State) (f : Option Pixel → Pixel) : (s.writeAll f).trace = s.trace :=
  rfl
@[simp] theorem State.writeAll_earlier (s : State) (f : Option Pixel → Pixel) : (s.writeAll f).earlier = s.earlier :=
  rfl
@[simp] theorem State.writeAll_responses (s : State) (f : Option Pixel → Pixel) : (s.writeAll f).responses = s.responses :=
  rfl
@[simp] theorem State.writeAll_accepted (s : State) (f : Option Pixel → Pixel) : (s.writeAll f).accepted = s.accepted :=
  rfl
@[simp] theorem State.writeAll_cmds (s : State) (f : Option Pixel → Pixel) : (s.writeAll f).cmds = s.cmds :=
  rfl
@[simp] theorem State.writeAll_port (s : State) (f : Option Pixel → Pixel) : (s.writeAll f).port = s.port :=
  rfl
@[simp] theorem State.writeAll_resetLine (s : State) (f : Option Pixel → Pixel) : (s.writeAll f).resetLine = s.resetLine :=
  rfl
@[simp] theorem State.writeAll_portStuck (s : State) (f : Option Pixel → Pixel) : (s.writeAll f).portStuck = s.portStuck :=
  rfl
@[simp] theorem State.writeAll_draws (s : State) (f : Option Pixel → Pixel) : (s.writeAll f).draws = s.draws :=
  rfl

/-! ## The lines and the port -/

@[simp] theorem State.setLine_pix (s : State) (l : Line) (v : Level) : (s.setLine l v).pix = s.pix :=
  by cases l <;> rfl
@[simp] theorem State.setLine_seq (s : State) (l : Line) (v : Level) : (s.setLine l v).seq = s.seq :=
  by cases l <;> rfl
@[simp] theorem State.setLine_trace (s : State) (l : Line) (v : Level) : (s.setLine l v).trace = s.trace :=
  by cases l <;> rfl
@[simp] theorem State.setLine_earlier (s : State) (l : Line) (v : Level) : (s.setLine l v).earlier = s.earlier :=
  by cases l <;> rfl
@[simp] theorem State.setLine_responses (s : State) (l : Line) (v : Level) : (s.setLine l v).responses = s.responses :=
  by cases l <;> rfl
@[simp] theorem State.setLine_accepted (s : State) (l : Line) (v : Level) : (s.setLine l v).accepted = s.accepted :=
  by cases l <;> rfl
@[simp] theorem State.setLine_cmds (s : State) (l : Line) (v : Level) : (s.setLine l v).cmds = s.cmds :=
  by cases l <;> rfl
@[simp] theorem State.setLine_port (s : State) (l : Line) (v : Level) : (s.setLine l v).port = s.port :=
  by cases l <;> rfl
@[simp] theorem State.setLine_resetLine (s : State) (l : Line) (v : Level) : (s.setLine l v).resetLine = s.resetLine :=
  by cases l <;> rfl
@[simp] theorem State.setLine_portStuck (s : State) (l : Line) (v : Level) : (s.setLine l v).portStuck = s.portStuck :=
  by cases l <;> rfl
@[simp] theorem State.setLine_draws (s : State) (l : Line) (v : Level) : (s.setLine l v).draws = s.draws :=
  by cases l <;> rfl

@[simp] theorem State.record_pix (s : State) (e : Event) : (s.record e).pix = s.pix :=
  rfl
@[simp] theorem State.record_seq (s : State) (e : Event) : (s.record e).seq = s.seq :=
  rfl
@[simp] theorem State.record_clk (s : State) (e : Event) : (s.record e).clk = s.clk :=
  rfl
@[simp] theorem State.record_dat (s : State) (e : Event) : (s.record e).dat = s.dat :=
  rfl
@[simp] theorem State.record_trace (s : State) (e : Event) : (s.record e).trace = s.trace ++ [e] :=
  rfl
@[simp] theorem State.record_earlier (s : State) (e : Event) : (s.record e).earlier = s.earlier :=
  rfl
@[simp] theorem State.record_responses (s : State) (e : Event) : (s.record e).responses = s.responses :=
  rfl
@[simp] theorem State.record_accepted (s : State) (e : Event) : (s.record e).accepted = s.accepted :=
  rfl
@[simp] theorem State.record_cmds (s : State) (e : Event) : (s.record e).cmds = s.cmds :=
  rfl
@[simp] theorem State.record_port (s : State) (e : Event) : (s.record e).port = s.port.tail :=
  rfl
@[simp] theorem State.record_resetLine (s : State) (e : Event) : (s.record e).resetLine = s.resetLine :=
  rfl
@[simp] theorem State.record_portStuck (s : State) (e : Event) : (s.record e).portStuck = s.portStuck :=
  rfl
@[simp] theorem State.record_draws (s : State) (e : Event) : (s.record e).draws = s.draws :=
  rfl

@[simp] theorem State.drawLine_pix (s : State) (l : Line) (v : Level) : (s.drawLine l v).pix = s.pix :=
  by cases l <;> rfl
@[simp] theorem State.drawLine_seq (s : State) (l : Line) (v : Level) : (s.drawLine l v).seq = s.seq :=
  by cases l <;> rfl
@[simp] theorem State.drawLine_trace (s : State) (l : Line) (v : Level) : (s.drawLine l v).trace = s.trace :=
  by cases l <;> rfl
@[simp] theorem State.drawLine_earlier (s : State) (l : Line) (v : Level) : (s.drawLine l v).earlier = s.earlier :=
  by cases l <;> rfl
@[simp] theorem State.drawLine_responses (s : State) (l : Line) (v : Level) : (s.drawLine l v).responses = s.responses :=
  by cases l <;> rfl
@[simp] theorem State.drawLine_accepted (s : State) (l : Line) (v : Level) : (s.drawLine l v).accepted = s.accepted :=
  by cases l <;> rfl
@[simp] theorem State.drawLine_cmds (s : State) (l : Line) (v : Level) : (s.drawLine l v).cmds = s.cmds :=
  by cases l <;> rfl
@[simp] theorem State.drawLine_port (s : State) (l : Line) (v : Level) : (s.drawLine l v).port = s.port :=
  by cases l <;> rfl
@[simp] theorem State.drawLine_resetLine (s : State) (l : Line) (v : Level) : (s.drawLine l v).resetLine = s.resetLine :=
  by cases l <;> rfl
@[simp] theorem State.drawLine_portStuck (s : State) (l : Line) (v : Level) : (s.drawLine l v).portStuck = s.portStuck :=
  by cases l <;> rfl
@[simp] theorem State.drawLine_draws (s : State) (l : Line) (v : Level) : (s.drawLine l v).draws = s.draws + 1 :=
  by cases l <;> rfl

@[simp] theorem State.portSet_pix (s : State) (e : Event) : (s.portSet e).pix = s.pix :=
  by unfold State.portSet; split <;> simp
@[simp] theorem State.portSet_seq (s : State) (e : Event) : (s.portSet e).seq = s.seq :=
  by unfold State.portSet; split <;> simp
@[simp] theorem State.portSet_trace (s : State) (e : Event) : (s.portSet e).trace = s.trace ++ [e] :=
  by unfold State.portSet; split <;> simp
@[simp] theorem State.portSet_earlier (s : State) (e : Event) : (s.portSet e).earlier = s.earlier :=
  by unfold State.portSet; split <;> simp
@[simp] theorem State.portSet_responses (s : State) (e : Event) : (s.portSet e).responses = s.responses :=
  by unfold State.portSet; split <;> simp
@[simp] theorem State.portSet_accepted (s : State) (e : Event) : (s.portSet e).accepted = s.accepted :=
  by unfold State.portSet; split <;> simp
@[simp] theorem State.portSet_cmds (s : State) (e : Event) : (s.portSet e).cmds = s.cmds :=
  by unfold State.portSet; split <;> simp
@[simp] theorem State.portSet_port (s : State) (e : Event) : (s.portSet e).port = s.port.tail :=
  by unfold State.portSet; split <;> simp
@[simp] theorem State.portSet_resetLine (s : State) (e : Event) : (s.portSet e).resetLine = s.resetLine :=
  by unfold State.portSet; split <;> simp
@[simp] theorem State.portSet_portStuck (s : State) (e : Event) : (s.portSet e).portStuck = s.portStuck :=
  by unfold State.portSet; split <;> simp

/-! ## Reset -/

@[simp] theorem State.sampleReset_pix (s : State) : (s.sampleReset).pix = s.pix :=
  rfl
@[simp] theorem State.sampleReset_seq (s : State) : (s.sampleReset).seq = s.seq :=
  rfl
@[simp] theorem State.sampleReset_clk (s : State) : (s.sampleReset).clk = s.clk :=
  rfl
@[simp] theorem State.sampleReset_dat (s : State) : (s.sampleReset).dat = s.dat :=
  rfl
@[simp] theorem State.sampleReset_trace (s : State) : (s.sampleReset).trace = s.trace :=
  rfl
@[simp] theorem State.sampleReset_earlier (s : State) : (s.sampleReset).earlier = s.earlier :=
  rfl
@[simp] theorem State.sampleReset_responses (s : State) : (s.sampleReset).responses = s.responses :=
  rfl
@[simp] theorem State.sampleReset_accepted (s : State) : (s.sampleReset).accepted = s.accepted :=
  rfl
@[simp] theorem State.sampleReset_cmds (s : State) : (s.sampleReset).cmds = s.cmds :=
  rfl
@[simp] theorem State.sampleReset_port (s : State) : (s.sampleReset).port = s.port :=
  rfl
@[simp] theorem State.sampleReset_resetLine (s : State) : (s.sampleReset).resetLine = s.resetLine.tail :=
  rfl
@[simp] theorem State.sampleReset_portStuck (s : State) : (s.sampleReset).portStuck = s.portStuck :=
  rfl
@[simp] theorem State.sampleReset_draws (s : State) : (s.sampleReset).draws = s.draws :=
  rfl

@[simp] theorem State.hostReset_pix (s : State) : (s.hostReset).pix = Vector.replicate numPixels none :=
  rfl
@[simp] theorem State.hostReset_seq (s : State) : (s.hostReset).seq = .idle :=
  rfl
@[simp] theorem State.hostReset_clk (s : State) : (s.hostReset).clk = clkReset :=
  rfl
@[simp] theorem State.hostReset_dat (s : State) : (s.hostReset).dat = datReset :=
  rfl
@[simp] theorem State.hostReset_trace (s : State) : (s.hostReset).trace = [] :=
  rfl
@[simp] theorem State.hostReset_earlier (s : State) : (s.hostReset).earlier = s.earlier ++ s.trace :=
  rfl
@[simp] theorem State.hostReset_responses (s : State) : (s.hostReset).responses = s.responses :=
  rfl
@[simp] theorem State.hostReset_accepted (s : State) : (s.hostReset).accepted = s.accepted :=
  rfl
@[simp] theorem State.hostReset_cmds (s : State) : (s.hostReset).cmds = s.cmds :=
  rfl
@[simp] theorem State.hostReset_port (s : State) : (s.hostReset).port = s.port :=
  rfl
@[simp] theorem State.hostReset_resetLine (s : State) : (s.hostReset).resetLine = s.resetLine :=
  rfl
@[simp] theorem State.hostReset_portStuck (s : State) : (s.hostReset).portStuck = false :=
  rfl
@[simp] theorem State.hostReset_draws (s : State) : (s.hostReset).draws = s.draws :=
  rfl

/-! ## Accepting a word -/

@[simp] theorem State.consume_pix (s : State) (rest : List CmdWord) : (s.consume rest).pix = s.pix :=
  rfl
@[simp] theorem State.consume_seq (s : State) (rest : List CmdWord) : (s.consume rest).seq = s.seq :=
  rfl
@[simp] theorem State.consume_clk (s : State) (rest : List CmdWord) : (s.consume rest).clk = s.clk :=
  rfl
@[simp] theorem State.consume_dat (s : State) (rest : List CmdWord) : (s.consume rest).dat = s.dat :=
  rfl
@[simp] theorem State.consume_trace (s : State) (rest : List CmdWord) : (s.consume rest).trace = s.trace :=
  rfl
@[simp] theorem State.consume_earlier (s : State) (rest : List CmdWord) : (s.consume rest).earlier = s.earlier :=
  rfl
@[simp] theorem State.consume_responses (s : State) (rest : List CmdWord) : (s.consume rest).responses = s.responses :=
  rfl
@[simp] theorem State.consume_accepted (s : State) (rest : List CmdWord) : (s.consume rest).accepted = s.accepted + 1 :=
  rfl
@[simp] theorem State.consume_cmds (s : State) (rest : List CmdWord) : (s.consume rest).cmds = rest :=
  rfl
@[simp] theorem State.consume_port (s : State) (rest : List CmdWord) : (s.consume rest).port = s.port :=
  rfl
@[simp] theorem State.consume_resetLine (s : State) (rest : List CmdWord) : (s.consume rest).resetLine = s.resetLine :=
  rfl
@[simp] theorem State.consume_portStuck (s : State) (rest : List CmdWord) : (s.consume rest).portStuck = s.portStuck :=
  rfl
@[simp] theorem State.consume_draws (s : State) (rest : List CmdWord) : (s.consume rest).draws = s.draws :=
  rfl

@[simp] theorem State.consume_slot (s : State) (rest : List CmdWord) (i : Fin numPixels) : (s.consume rest).slot i = s.slot i :=
  rfl

/-! ## Presenting a word -/

@[simp] theorem State.present_pix (s : State) (w : CmdWord) : (s.present w).pix = s.pix :=
  rfl
@[simp] theorem State.present_seq (s : State) (w : CmdWord) : (s.present w).seq = .idle :=
  rfl
@[simp] theorem State.present_clk (s : State) (w : CmdWord) : (s.present w).clk = s.clk :=
  rfl
@[simp] theorem State.present_dat (s : State) (w : CmdWord) : (s.present w).dat = s.dat :=
  rfl
@[simp] theorem State.present_trace (s : State) (w : CmdWord) : (s.present w).trace = s.trace :=
  rfl
@[simp] theorem State.present_earlier (s : State) (w : CmdWord) : (s.present w).earlier = s.earlier :=
  rfl
@[simp] theorem State.present_responses (s : State) (w : CmdWord) : (s.present w).responses = s.responses :=
  rfl
@[simp] theorem State.present_accepted (s : State) (w : CmdWord) : (s.present w).accepted = s.accepted :=
  rfl
@[simp] theorem State.present_cmds (s : State) (w : CmdWord) : (s.present w).cmds = w :: s.cmds :=
  rfl
@[simp] theorem State.present_port (s : State) (w : CmdWord) : (s.present w).port = s.port :=
  rfl
@[simp] theorem State.present_resetLine (s : State) (w : CmdWord) : (s.present w).resetLine = false :: s.resetLine :=
  rfl
@[simp] theorem State.present_portStuck (s : State) (w : CmdWord) : (s.present w).portStuck = false :=
  rfl
@[simp] theorem State.present_draws (s : State) (w : CmdWord) : (s.present w).draws = s.draws :=
  rfl

/-- States are equal field by field. -/
theorem state_ext {s t : State} (h1 : s.pix = t.pix) (h2 : s.seq = t.seq) (h3 : s.clk = t.clk) (h4 : s.dat = t.dat)
    (h5 : s.trace = t.trace) (h6 : s.earlier = t.earlier) (h7 : s.responses = t.responses) (h8 : s.cmds = t.cmds)
    (h9 : s.port = t.port) (h10 : s.resetLine = t.resetLine) (h11 : s.portStuck = t.portStuck)
    (h12 : s.draws = t.draws) (h13 : s.accepted = t.accepted) : s = t := by
  cases s; cases t; simp_all

end Sys2Proof.Machine
end

