-- ==== Sys2Proof/Laws/Ops.lean ====
section
/-! SUPPORT. Ending a command, slots, the index check and the check of all slots. -/

namespace Sys2Proof.Machine

open Sys2Proof.Config

/-! ## Ending a command -/

theorem complete_eq (s : State) : complete s = .next { s with responses := s.responses ++ [.ok] } := rfl

theorem raise_eq (f : Fault) (s : State) : raise f s = .next { s with responses := s.responses ++ [.fault f] } := rfl

/-! ## Slots -/

@[simp] theorem State.slot_respond (s : State) (r : Response) (i : Fin numPixels) : (s.respond r).slot i = s.slot i := rfl

@[simp] theorem State.slot_writeSlot_self (s : State) (n : Fin numPixels) (p : Pixel) : (s.writeSlot n p).slot n = some p := by
  simp [State.slot, State.writeSlot, Vector.get_eq_getElem]

theorem State.slot_writeSlot_ne (s : State) (n m : Fin numPixels) (p : Pixel) (h : m ≠ n) :
    (s.writeSlot n p).slot m = s.slot m := by
  have h' : n.val ≠ m.val := fun e => h (Fin.ext e.symm)
  simp [State.slot, State.writeSlot, Vector.get_eq_getElem, h']

@[simp] theorem State.slot_writeAll (s : State) (f : Option Pixel → Pixel) (n : Fin numPixels) :
    (s.writeAll f).slot n = some (f (s.slot n)) := by
  simp [State.slot, State.writeAll, Vector.get_eq_getElem]

@[simp] theorem State.slot_reset (n : Fin numPixels) : State.reset.slot n = none := by
  simp [State.slot, State.reset, Vector.get_eq_getElem]

/-- Two stores with the same slots are the same. -/
theorem pix_ext {s t : State} (h : ∀ n, s.slot n = t.slot n) : s.pix = t.pix := by
  apply Vector.ext
  intro i hi
  exact h ⟨i, hi⟩

/-- A slot is valid exactly when it holds a pixel (spec/10_state.md R23). -/
theorem State.valid_iff (s : State) (n : Fin numPixels) : s.valid n = true ↔ ∃ p, s.slot n = some p := by
  simp [State.valid, Option.isSome_iff_exists]

/-! ## The index check (spec/40_pixel_store_ops.md R103) -/

@[simp] theorem slotIndex_val (n : Fin numPixels) : slotIndex (n.val : Int) = some n := by
  simp [slotIndex]

theorem slotIndex_out (i : Int) (h : i < 0 ∨ 7 < i) : slotIndex i = none := by
  unfold slotIndex
  simp only [numPixels]
  split_ifs with h1 h2
  · omega
  · rfl
  · rfl

/-- What the index check answers: a slot for 0 to 7, else nothing. -/
theorem slotIndex_cases (i : Int) : (∃ n : Fin numPixels, i = n.val ∧ slotIndex i = some n) ∨
    ((i < 0 ∨ 7 < i) ∧ slotIndex i = none) := by
  by_cases h : i < 0 ∨ 7 < i
  · exact .inr ⟨h, slotIndex_out i h⟩
  · have h8 : i.toNat < numPixels := by simp only [numPixels]; omega
    refine .inl ⟨⟨i.toNat, h8⟩, by simp only []; omega, ?_⟩
    have := slotIndex_val ⟨i.toNat, h8⟩
    rwa [show ((⟨i.toNat, h8⟩ : Fin numPixels).val : Int) = i by simp only []; omega] at this

/-! ## The check of all slots (spec/41_transmit.md R131) -/

theorem firstInvalid_none_iff (s : State) : s.firstInvalid = none ↔ ∀ n, ∃ p, s.slot n = some p := by
  simp [State.firstInvalid, State.valid, Option.ne_none_iff_exists']

/-- The least index that satisfies a predicate is the first found in `finRange`. -/
theorem find_finRange {k : Nat} (f : Fin k → Bool) (n : Fin k) (h : f n = true) (hl : ∀ m, m < n → f m = false) :
    (List.finRange k).find? f = some n := by
  rw [List.find?_eq_some_iff_getElem]
  refine ⟨h, n.val, by simp, by simp, ?_⟩
  intro j hj
  simp only [List.getElem_finRange, Fin.cast_mk, Bool.not_eq_true']
  exact hl _ hj

theorem firstInvalid_some (s : State) (n : Fin numPixels) (h : s.slot n = none) (hl : ∀ m, m < n → s.slot m ≠ none) :
    s.firstInvalid = some n := by
  apply find_finRange
  · simp [State.valid, h]
  · intro m hm
    simpa [State.valid, Option.isSome_iff_ne_none] using hl m hm

theorem firstInvalid_of_shows (s : State) (px : Fin numPixels → Pixel) (h : s.Shows px) : s.firstInvalid = none := by
  rw [firstInvalid_none_iff]
  exact fun n => ⟨px n, h n⟩

/-- A store whose slots are all valid shows some pixels. -/
theorem exists_shows (s : State) (h : s.firstInvalid = none) : ∃ px, s.Shows px := by
  rw [firstInvalid_none_iff] at h
  choose px hp using h
  exact ⟨px, hp⟩

@[simp] theorem valid_respond (s : State) (r : Response) (n : Fin numPixels) : (s.respond r).valid n = s.valid n := rfl

@[simp] theorem valid_writeAll (s : State) (f : Option Pixel → Pixel) (n : Fin numPixels) : (s.writeAll f).valid n = true := by
  simp [State.valid]

theorem valid_writeSlot (s : State) (m n : Fin numPixels) (p : Pixel) (h : s.valid n = true) :
    (s.writeSlot m p).valid n = true := by
  by_cases hm : n = m
  · subst hm; simp [State.valid]
  · simpa [State.valid, State.slot_writeSlot_ne _ _ _ _ hm] using h

end Sys2Proof.Machine
end

