-- ==== Sys2Proof/Laws/PerInstr.lean ====
section
/-! SUPPORT. The encoding of a row, well-formed or not, is read as the same row of spec/opcode_table.json; what an operand
that does not fit its field becomes is left open here (spec/30_encoding.md R71 to R74, R77, R80). -/

namespace Sys2Proof.Laws.EncodingKeepsRow

/-- The bits that `encode` writes for `i` are read as a row with the mnemonic of `i`. -/
def Statement (i : Instr) : Prop :=
  ∃ j, decodeEncoded (encode i) = some j ∧ j.mnemonic = i.mnemonic

theorem init : Statement .init :=
  ⟨.init, by simp [encode, decodeEncoded, decode, Decoded.toOption], rfl⟩

theorem setpix (i : Int) (r g b : Rat) : Statement (.setpix i r g b) :=
  ⟨.setpix (indexValue (BitVec.ofInt 8 i)) (fieldValue (fieldOf r)) (fieldValue (fieldOf g)) (fieldValue (fieldOf b)),
    by simp [encode, decodeEncoded, decode, Decoded.toOption], rfl⟩

theorem setpixa (i : Int) (r g b a : Rat) : Statement (.setpixa i r g b a) :=
  ⟨.setpixa (indexValue (BitVec.ofInt 8 i)) (fieldValue (fieldOf r)) (fieldValue (fieldOf g)) (fieldValue (fieldOf b)) (fieldValue (fieldOf a)),
    by simp [encode, decodeEncoded, decode, Decoded.toOption], rfl⟩

theorem setall (r g b : Rat) : Statement (.setall r g b) :=
  ⟨.setall (fieldValue (fieldOf r)) (fieldValue (fieldOf g)) (fieldValue (fieldOf b)),
    by simp [encode, decodeEncoded, decode, Decoded.toOption], rfl⟩

theorem setalla (r g b a : Rat) : Statement (.setalla r g b a) :=
  ⟨.setalla (fieldValue (fieldOf r)) (fieldValue (fieldOf g)) (fieldValue (fieldOf b)) (fieldValue (fieldOf a)),
    by simp [encode, decodeEncoded, decode, Decoded.toOption], rfl⟩

theorem setbrt (i : Int) (a : Rat) : Statement (.setbrt i a) :=
  ⟨.setbrt (indexValue (BitVec.ofInt 8 i)) (fieldValue (fieldOf a)),
    by simp [encode, decodeEncoded, decode, Decoded.toOption], rfl⟩

theorem clear : Statement .clear :=
  ⟨.clear, by simp [encode, decodeEncoded, decode, Decoded.toOption], rfl⟩

theorem xmit : Statement .xmit :=
  ⟨.xmit, by simp [encode, decodeEncoded, decode, Decoded.toOption], rfl⟩

theorem wireStart : Statement .wireStart :=
  ⟨.wireStart, by decide, rfl⟩

theorem wirePixel (br : Bright) (b g r : Byte) : Statement (.wirePixel br b g r) :=
  ⟨.wirePixel br b g r, by simp [encode, decodeEncoded], rfl⟩

theorem wireEnd : Statement .wireEnd :=
  ⟨.wireEnd, by decide, rfl⟩

end Sys2Proof.Laws.EncodingKeepsRow
end

