-- ==== Sys2Proof/Laws/Sequencer.lean ====
section
/-! SUPPORT. The order of the port writes, the events of a frame, and what one port write can do. -/

namespace Sys2Proof.Machine

open Sys2Proof.Config

/-! ## The order of the port writes (spec/10_state.md R28) -/

theorem SeqPos.number_le (p : SeqPos) : p.number ≤ 887 := by
  obtain ⟨⟨k, hk⟩, ⟨j, hj⟩, ph⟩ := p
  simp only [numPixels, frameBytes, pulsesPerByte, startBytes, bytesPerPixel, endBytes] at hk hj
  cases ph <;> simp only [SeqPos.number, pulsesPerByte, numPixels] <;> omega

/-- `next` counts one write on, and ends after number 887. -/
theorem SeqPos.next_cases (p : SeqPos) :
    (∃ q, p.next = some q ∧ q.number = p.number + 1) ∨ (p.next = none ∧ p.number = 887) := by
  obtain ⟨⟨k, hk⟩, ⟨j, hj⟩, ph⟩ := p
  have hk' : k < 37 := hk
  have hj' : j < 8 := hj
  cases ph
  · exact .inl ⟨_, rfl, rfl⟩
  · exact .inl ⟨_, rfl, rfl⟩
  · simp only [SeqPos.next, SeqPos.number]
    split_ifs with h1 h2
    · refine .inl ⟨_, rfl, ?_⟩
      simp only [pulsesPerByte, numPixels]; omega
    · refine .inl ⟨_, rfl, ?_⟩
      simp only [pulsesPerByte, numPixels] at h1 ⊢; omega
    · refine .inr ⟨rfl, ?_⟩
      simp only [pulsesPerByte, numPixels, frameBytes, startBytes, bytesPerPixel, endBytes] at h1 h2 ⊢; omega

theorem SeqPos.number_inj {p q : SeqPos} (h : p.number = q.number) : p = q := by
  obtain ⟨⟨k, hk⟩, ⟨j, hj⟩, ph⟩ := p
  obtain ⟨⟨k', hk'⟩, ⟨j', hj'⟩, ph'⟩ := q
  have h1 : j < 8 := hj
  have h2 : j' < 8 := hj'
  simp only [SeqPos.number, pulsesPerByte, numPixels] at h
  cases ph <;> cases ph' <;> simp only at h <;> first
    | omega
    | (obtain rfl : k = k' := by omega
       obtain rfl : j = j' := by omega
       rfl)

theorem SeqPos.next_of_lt (p : SeqPos) (h : p.number < 887) : ∃ q, p.next = some q ∧ q.number = p.number + 1 := by
  rcases p.next_cases with h1 | ⟨_, h1⟩
  · exact h1
  · omega

theorem SeqPos.next_of_eq (p : SeqPos) (h : p.number = 887) : p.next = none := by
  rcases p.next_cases with ⟨q, _, h2⟩ | ⟨h1, _⟩
  · have := q.number_le; omega
  · exact h1

/-! ## The events of a frame (spec/41_transmit.md R139) -/

/-- The `n`-th port write of a transmit. -/
def eventAt (px : Fin numPixels → Pixel) (n : Nat) : Event :=
  match n % 3 with
  | 0 => ⟨.dat, Level.ofBool (frameBit px (n / 3))⟩
  | 1 => ⟨.clk, .high⟩
  | _ => ⟨.clk, .low⟩

/-- A range of a·b numbers is a blocks of b. -/
theorem map_range_mul {α : Type} (f : Nat → α) (a b : Nat) :
    (List.range (a * b)).map f = (List.range a).flatMap fun i => (List.range b).map fun j => f (i * b + j) := by
  induction a with
  | zero => simp
  | succ a ih =>
    rw [Nat.succ_mul, List.range_add, List.map_append, ih, List.range_succ, List.flatMap_append]
    simp [Function.comp_def]

theorem frameEvents_eq_map (px : Fin numPixels → Pixel) : frameEvents px = (List.range 888).map (eventAt px) := by
  rw [show (888 : Nat) = 37 * (8 * 3) by rfl, map_range_mul]
  unfold frameEvents frameBytesOf
  rw [List.flatMap_map]
  apply List.flatMap_congr
  intro k _
  rw [map_range_mul]
  unfold byteEvents
  apply List.flatMap_congr
  intro j hj
  have hj8 : j < 8 := List.mem_range.mp hj
  have e0 : (k * (8 * 3) + (j * 3 + 0)) % 3 = 0 := by omega
  have e1 : (k * (8 * 3) + (j * 3 + 1)) % 3 = 1 := by omega
  have e2 : (k * (8 * 3) + (j * 3 + 2)) % 3 = 2 := by omega
  have e3 : (k * (8 * 3) + (j * 3 + 0)) / 3 / 8 = k := by omega
  have e4 : (k * (8 * 3) + (j * 3 + 0)) / 3 % 8 = j := by omega
  simp only [List.range_succ, List.range_zero, List.nil_append, List.map_cons, List.map_nil,
    List.cons_append, eventAt, e0, e1, e2, bitEvents, frameBit, pulsesPerByte, numPixels, e3, e4]

theorem length_frameEvents (px : Fin numPixels → Pixel) : (frameEvents px).length = 888 := by
  rw [frameEvents_eq_map]; simp

theorem getElem_frameEvents (px : Fin numPixels → Pixel) (n : Nat) (h : n < 888) :
    (frameEvents px)[n]? = some (eventAt px n) := by
  rw [frameEvents_eq_map]; simp [h]

/-- The write at a position is the event of its number. -/
theorem SeqPos.write_eq_eventAt (p : SeqPos) (px : Fin numPixels → Pixel) :
    p.write (frameByte px p.k) = eventAt px p.number := by
  obtain ⟨⟨k, hk⟩, ⟨j, hj⟩, ph⟩ := p
  have hj' : j < 8 := hj
  cases ph
  · have e0 : ((k * 8 + j) * 3 + 0) % 3 = 0 := by omega
    have e1 : ((k * 8 + j) * 3 + 0) / 3 / 8 = k := by omega
    have e2 : ((k * 8 + j) * 3 + 0) / 3 % 8 = j := by omega
    simp only [SeqPos.write, eventAt, SeqPos.number, frameBit, pulsesPerByte, numPixels, e0, e1, e2]
  · have e0 : ((k * 8 + j) * 3 + 1) % 3 = 1 := by omega
    simp only [SeqPos.write, eventAt, SeqPos.number, pulsesPerByte, numPixels, e0]
  · have e0 : ((k * 8 + j) * 3 + 2) % 3 = 2 := by omega
    simp only [SeqPos.write, eventAt, SeqPos.number, pulsesPerByte, numPixels, e0]

/-- The writes before a position, and its own, are the writes up to its number. -/
theorem take_frameEvents_succ (p : SeqPos) (px : Fin numPixels → Pixel) :
    (frameEvents px).take (p.number + 1) = (frameEvents px).take p.number ++ [p.write (frameByte px p.k)] := by
  have h := p.number_le
  rw [List.take_add_one, getElem_frameEvents px _ (by omega), p.write_eq_eventAt]
  rfl

/-! ## One port write -/

theorem State.portSet_done (s : State) (e : Event) (h : s.portAnswer = .done) :
    s.portSet e = (s.record e).setLine e.line e.level := by
  simp [State.portSet, h]

/-- Everything one step of the sequencer can do, by the port's answer (spec/41_transmit.md R138, R141, R142). -/
theorem sendWrite_cases (p : SeqPos) (v : Byte) (s : State) :
    (s.portAnswer = .done ∧ sendWrite p v s = ((s.record (p.write v)).setLine (p.write v).line (p.write v).level).advance p) ∨
    (s.portAnswer = .fail ∧ sendWrite p v s = raise (.ioError p) { s.portSet (p.write v) with seq := .idle }) ∨
    (s.portAnswer = .never ∧ sendWrite p v s = .next { s.portSet (p.write v) with portStuck := true }) := by
  unfold sendWrite
  cases h : s.portAnswer
  · exact .inl ⟨rfl, by simp [State.portSet_done _ _ h]⟩
  · exact .inr (.inl ⟨rfl, rfl⟩)
  · exact .inr (.inr ⟨rfl, rfl⟩)

/-- A write that is done moves the sequencer on, or ends the command (spec/41_transmit.md R138, R140). -/
theorem State.advance_cases (s : State) (p : SeqPos) :
    (∃ q, p.next = some q ∧ q.number = p.number + 1 ∧ s.advance p = .next { s with seq := .sending q }) ∨
    (p.number = 887 ∧ p.next = none ∧ s.advance p = .next { s with seq := .idle, responses := s.responses ++ [.ok] }) := by
  rcases p.next_cases with ⟨q, h1, h2⟩ | ⟨h1, h2⟩
  · exact .inl ⟨q, h1, h2, by simp [State.advance, h1]⟩
  · exact .inr ⟨h2, h1, by simp [State.advance, h1, complete, State.respond]⟩

/-- The written line has its old level or the new one, the other line its old one (spec/41_transmit.md R141). -/
theorem State.line_portSet (s : State) (e : Event) (l : Line) :
    (s.portSet e).line l = s.line l ∨ (l = e.line ∧ (s.portSet e).line l = e.level) := by
  unfold State.portSet State.drawLine
  obtain ⟨el, ev⟩ := e
  cases hd : failedWriteLands s.draws <;> cases s.portAnswer <;> cases el <;> cases l <;>
    simp [State.setLine, State.line, State.record, hd]

/-- Whatever the port answers, one step of the sequencer is one event, at most one response, and no change of the store. -/
theorem sendWrite_next (p : SeqPos) (v : Byte) (s : State) : ∃ t, sendWrite p v s = .next t ∧
    t.pix = s.pix ∧ t.cmds = s.cmds ∧ t.accepted = s.accepted ∧ t.earlier = s.earlier ∧ t.resetLine = s.resetLine ∧
    t.trace = s.trace ++ [p.write v] ∧
    (t.responses = s.responses ∨ t.responses = s.responses ++ [.ok] ∨
      t.responses = s.responses ++ [.fault (.ioError p)]) ∧
    (s.seq = .sending p → t.responses.length + t.running = s.responses.length + s.running) := by
  rcases sendWrite_cases p v s with ⟨_, h1⟩ | ⟨_, h1⟩ | ⟨_, h1⟩
  · rw [h1]
    rcases State.advance_cases ((s.record (p.write v)).setLine (p.write v).line (p.write v).level) p with
      ⟨q, _, _, h2⟩ | ⟨_, _, h2⟩ <;>
    · rw [h2]; exact ⟨_, rfl, by simp, by simp, by simp, by simp, by simp, by simp, by simp, fun hs => by simp [State.running, State.busy, hs]⟩
  · rw [h1]; exact ⟨_, rfl, by simp, by simp, by simp, by simp, by simp, by simp, by simp, fun hs => by simp [State.running, State.busy, hs]⟩
  · rw [h1]; exact ⟨_, rfl, by simp, by simp, by simp, by simp, by simp, by simp, by simp, fun hs => by simp [State.running, State.busy, hs]⟩

/-- A wire frame that answers a next state is one step of the sequencer with the frame's byte at the position. -/
theorem sendFrame_inv (f : Nat → Option Byte) (s t : State) (h : sendFrame f s = .next t) :
    ∃ p v, s.seq = .sending p ∧ f p.k = some v ∧ sendWrite p v s = .next t := by
  unfold sendFrame at h
  cases hs : s.seq with
  | idle => simp [hs] at h
  | sending p =>
    simp only [hs] at h
    cases hv : f p.k with
    | none => simp [hv] at h
    | some v => exact ⟨p, v, rfl, hv, by simpa [hv] using h⟩

/-- A write that the port does, but for the last of the frame (spec/41_transmit.md R136, R138). -/
theorem sendWrite_done (p : SeqPos) (v : Byte) (s : State) (h : s.portAnswer = .done) (hp : p.number < 887) :
    ∃ q, p.next = some q ∧ q.number = p.number + 1 ∧ sendWrite p v s = .next { s with
      seq := .sending q
      trace := s.trace ++ [p.write v]
      port := s.port.tail
      clk := match p.ph with | .data => s.clk | .clockHigh => .high | .clockLow => .low
      dat := match p.ph with | .data => Level.ofBool (wireBit v p.j) | .clockHigh | .clockLow => s.dat } := by
  obtain ⟨q, h0, h3⟩ := p.next_of_lt hp
  refine ⟨q, h0, h3, ?_⟩
  simp only [sendWrite, h, State.portSet, State.advance, h0]
  obtain ⟨k, j, ph⟩ := p
  cases ph <;> rfl

/-! ## The bits of a pixel frame and what a receiver samples (spec/30_encoding.md R73, spec/41_transmit.md R143) -/

/-- Bit j of byte f of a pixel frame is bit 31 - (8 f + j) of its pattern. -/
theorem wireByte_bit (x : Pixel) (f : Fin 4) (j : Nat) (hj : j < 8) :
    wireBit (x.wireByte f.val) j = (pixelWord x.br x.b x.g x.r).getLsbD (31 - (8 * f.val + j)) := by
  rw [getLsbD_pixelWord]
  have : f.val < 4 := f.isLt
  obtain ⟨f, hf⟩ := f
  have h4 : f = 0 ∨ f = 1 ∨ f = 2 ∨ f = 3 := by omega
  rcases h4 with rfl | rfl | rfl | rfl
  · simp only [wireBit, Pixel.wireByte, BitVec.getLsbD_or, BitVec.getLsbD_setWidth, pixelHeader]
    rw [if_neg (by omega), if_neg (by omega), if_neg (by omega)]
    split_ifs with h
    · rw [show 31 - (8 * 0 + j) - 24 = 7 - j by omega]
      have : (0xE0#8).getLsbD (7 - j) = false := by
        have : j = 3 ∨ j = 4 ∨ j = 5 ∨ j = 6 ∨ j = 7 := by omega
        rcases this with rfl | rfl | rfl | rfl | rfl <;> rfl
      simp [this]; omega
    · rw [show 31 - (8 * 0 + j) - 29 = 2 - j by omega]
      have : j = 0 ∨ j = 1 ∨ j = 2 := by omega
      rcases this with rfl | rfl | rfl <;> simp
  · simp only [wireBit, Pixel.wireByte]
    rw [if_neg (by omega), if_neg (by omega), if_pos (by omega)]; congr 1; omega
  · simp only [wireBit, Pixel.wireByte]
    rw [if_neg (by omega), if_pos (by omega)]; congr 1; omega
  · simp only [wireBit, Pixel.wireByte]
    rw [if_pos (by omega)]; congr 1; omega


/-- The events of a frame, bit by bit. -/
theorem frameEvents_eq_bits (px : Fin numPixels → Pixel) :
    frameEvents px = (List.range 296).flatMap fun i => bitEvents (frameBit px i) := by
  rw [frameEvents_eq_map, show (888 : Nat) = 296 * 3 by rfl, map_range_mul]
  apply List.flatMap_congr
  intro n _
  have e0 : (n * 3 + 0) % 3 = 0 := by omega
  have e1 : (n * 3 + 1) % 3 = 1 := by omega
  have e2 : (n * 3 + 2) % 3 = 2 := by omega
  have e3 : (n * 3 + 0) / 3 = n := by omega
  simp only [List.range_succ, List.range_zero, List.nil_append, List.map_cons, List.map_nil, List.cons_append, eventAt,
    e0, e1, e2, e3, bitEvents]

/-- From a LOW clock the rising edges sample every bit. -/
theorem sampledBits_bits (f : Nat → Bool) (m n : Nat) (dat : Level) :
    sampledBits .low dat ((List.range' m n).flatMap fun i => bitEvents (f i)) =
      (List.range' m n).map fun i => Level.ofBool (f i) := by
  induction n generalizing m dat with
  | zero => simp [sampledBits]
  | succ n ih => simp [List.range'_succ, bitEvents, sampledBits] at ih ⊢; exact ih _ _

/-- The falling edges sample every bit, whatever the clock is at the start. -/
theorem fallingBits_bits (f : Nat → Bool) (m n : Nat) (dat clk : Level) :
    fallingBits clk dat ((List.range' m n).flatMap fun i => bitEvents (f i)) =
      (List.range' m n).map fun i => Level.ofBool (f i) := by
  induction n generalizing m dat clk with
  | zero => simp [fallingBits]
  | succ n ih => simp [List.range'_succ, bitEvents, fallingBits] at ih ⊢; exact ih _ _ _

end Sys2Proof.Machine
end

