-- ==== Sys2Proof/Laws/Step.lean ====
section
/-! SUPPORT. The frame in hand, and everything a step can be. -/

namespace Sys2Proof.Machine

open Sys2Proof.Config

/-! ## The frame in hand -/

/-- A row that is sent at a position writes the frame's byte there. -/
theorem exec_frameInHand (s : State) (p : SeqPos) (px : Fin numPixels → Pixel) (h : s.Shows px) (hs : s.seq = .sending p) :
    ∃ i, s.frameInHand p = some i ∧ exec i s = sendWrite p (frameByte px p.k) s := by
  have hk : p.k.val < 37 := p.k.isLt
  unfold State.frameInHand frameByte
  by_cases h1 : p.k.val < startBytes
  · refine ⟨.wireStart, by rw [if_pos h1], ?_⟩
    simp [exec, execWireStart, sendFrame, hs, startFrameByte, h1]
  · by_cases h2 : p.k.val < startBytes + bytesPerPixel * numPixels
    · refine ⟨.wirePixel _ _ _ _, by rw [if_neg h1, if_pos h2, h (pixelOfByte p.k)], ?_⟩
      simp only [exec, execWirePixel, sendFrame, hs, pixelFrameByte]
      rw [if_pos ⟨by omega, h2⟩, if_neg h1, if_pos h2]
    · refine ⟨.wireEnd, by rw [if_neg h1, if_neg h2], ?_⟩
      simp only [exec, execWireEnd, sendFrame, hs, endFrameByte]
      rw [if_pos (by omega), if_neg h1, if_neg h2]

/-- A pixel frame's slot and byte, from the position in the frame (spec/30_encoding.md R71). -/
theorem pixelOfByte_eq (n : Fin numPixels) (f : Fin 4) : pixelOfByte (4 + 4 * n.val + f.val) = n := by
  apply Fin.ext
  have hn : n.val < 8 := n.isLt
  have hf := f.isLt
  simp only [pixelOfByte, Fin.ofNat, startBytes, bytesPerPixel, numPixels]
  omega

/-! ## The step -/

theorem step_of_reset (s : State) (h : s.resetNow = true) : step s = .next s.sampleReset.hostReset := by
  simp [step, State.fetch, h]

theorem step_of_stuck (s : State) (h : s.resetNow = false) (hp : s.portStuck = true) : step s = .next s.sampleReset := by
  simp [step, State.fetch, State.continue, h, hp]

theorem step_of_waiting (s : State) (h : s.resetNow = false) (hp : s.portStuck = false) (hs : s.seq = .idle)
    (hc : s.cmds = []) : step s = .next s.sampleReset := by
  simp [step, State.fetch, State.continue, State.accept, h, hp, hs, hc]

theorem step_of_command (s : State) (w : CmdWord) (rest : List CmdWord) (i : Instr) (h : s.resetNow = false)
    (hp : s.portStuck = false) (hs : s.seq = .idle) (hc : s.cmds = w :: rest) (hd : decode w = .op i) :
    step s = exec i (s.sampleReset.consume rest) := by
  simp [step, State.fetch, State.continue, State.accept, h, hp, hs, hc, hd]

theorem step_of_illegal (s : State) (w : CmdWord) (rest : List CmdWord) (o : Byte) (h : s.resetNow = false)
    (hp : s.portStuck = false) (hs : s.seq = .idle) (hc : s.cmds = w :: rest) (hd : decode w = .illegal o) :
    step s = .next ((s.sampleReset.consume rest).respond (.fault (.illegalCommand o))) := by
  simp [step, State.fetch, State.continue, State.accept, h, hp, hs, hc, hd]

theorem step_of_frame (s : State) (p : SeqPos) (i : Instr) (h : s.resetNow = false) (hp : s.portStuck = false)
    (hs : s.seq = .sending p) (hi : s.sampleReset.frameInHand p = some i) : step s = exec i s.sampleReset := by
  simp [step, State.fetch, State.continue, h, hp, hs, hi]

/-- A step of a running transmit is one port write of the frame of the store. -/
theorem step_of_sending (s : State) (p : SeqPos) (px : Fin numPixels → Pixel) (h : s.resetNow = false)
    (hp : s.portStuck = false) (hs : s.seq = .sending p) (hx : s.Shows px) :
    step s = sendWrite p (frameByte px p.k) s.sampleReset := by
  obtain ⟨i, h1, h2⟩ := exec_frameInHand s.sampleReset p px hx hs
  rw [step_of_frame s p i h hp hs h1, h2]

/-- Everything a step that answers a next state can be. -/
theorem step_cases (s t : State) (h : step s = .next t) :
    (s.resetNow = true ∧ t = s.sampleReset.hostReset) ∨
    (s.resetNow = false ∧ s.portStuck = true ∧ t = s.sampleReset) ∨
    (s.resetNow = false ∧ s.portStuck = false ∧ s.seq = .idle ∧ s.cmds = [] ∧ t = s.sampleReset) ∨
    (s.resetNow = false ∧ s.portStuck = false ∧ s.seq = .idle ∧ ∃ w rest o, s.cmds = w :: rest ∧ decode w = .illegal o ∧
      t = (s.sampleReset.consume rest).respond (.fault (.illegalCommand o))) ∨
    (s.resetNow = false ∧ s.portStuck = false ∧ s.seq = .idle ∧ ∃ w rest i, s.cmds = w :: rest ∧ decode w = .op i ∧
      exec i (s.sampleReset.consume rest) = .next t) ∨
    (s.resetNow = false ∧ s.portStuck = false ∧ ∃ p i v, s.seq = .sending p ∧ s.sampleReset.frameInHand p = some i ∧
      exec i s.sampleReset = .next t ∧ sendWrite p v s.sampleReset = .next t) := by
  cases hr : s.resetNow
  swap
  · rw [step_of_reset s hr] at h; cases h; exact .inl ⟨rfl, rfl⟩
  right
  cases hp : s.portStuck
  swap
  · rw [step_of_stuck s hr hp] at h; cases h; exact .inl ⟨rfl, rfl, rfl⟩
  right
  cases hs : s.seq with
  | idle =>
    cases hc : s.cmds with
    | nil => rw [step_of_waiting s hr hp hs hc] at h; cases h; exact .inl ⟨rfl, rfl, rfl, rfl, rfl⟩
    | cons w rest =>
      right
      cases hd : decode w with
      | illegal o =>
        rw [step_of_illegal s w rest o hr hp hs hc hd] at h; cases h
        exact .inl ⟨rfl, rfl, rfl, w, rest, o, rfl, hd, rfl⟩
      | op i =>
        rw [step_of_command s w rest i hr hp hs hc hd] at h
        exact .inr (.inl ⟨rfl, rfl, rfl, w, rest, i, rfl, hd, h⟩)
  | sending p =>
    right; right; right
    refine ⟨rfl, rfl, p, ?_⟩
    have hs' : s.sampleReset.seq = .sending p := hs
    simp only [step, State.fetch, State.continue, hr, hp, hs', State.sampleReset_portStuck] at h
    cases hi : s.sampleReset.frameInHand p with
    | none => simp [hi] at h
    | some i =>
      simp only [hi] at h
      refine ⟨i, ?_⟩
      have hsend : ∀ byteAt, sendFrame byteAt s.sampleReset = .next t →
          ∃ v, Seq.sending p = Seq.sending p ∧ some i = some i ∧ exec i s.sampleReset = .next t ∧
            sendWrite p v s.sampleReset = .next t := by
        intro byteAt hb
        simp only [sendFrame, hs'] at hb
        cases hv : byteAt p.k with
        | none => simp [hv] at hb
        | some v => exact ⟨v, rfl, rfl, h, by simpa [hv] using hb⟩
      unfold State.frameInHand at hi
      split_ifs at hi with h1 h2
      · cases hi; exact hsend _ h
      · cases hx : s.sampleReset.slot (pixelOfByte p.k) with
        | none => simp [hx] at hi
        | some x => simp only [hx, Option.some.injEq] at hi; subst hi; exact hsend _ h
      · cases hi; exact hsend _ h

/-! ## Commands -/

/-- Everything a command that writes the store can do: write every slot, one slot or none, and respond. -/
theorem exec_store_cases (i : Instr) (s : State) (h : i.isStoreCommand = true) : ∃ u r, exec i s = .next (u.respond r) ∧
    (u = s ∨ (∃ f, u = s.writeAll f) ∨ ∃ n p, u = s.writeSlot n p) := by
  cases i with
  | init => exact ⟨_, _, rfl, .inr (.inl ⟨_, rfl⟩)⟩
  | setall => exact ⟨_, _, rfl, .inr (.inl ⟨_, rfl⟩)⟩
  | setalla => exact ⟨_, _, rfl, .inr (.inl ⟨_, rfl⟩)⟩
  | clear => exact ⟨_, _, rfl, .inr (.inl ⟨_, rfl⟩)⟩
  | setpix i r g b =>
    rcases slotIndex_cases i with ⟨n, _, hn⟩ | ⟨_, hn⟩
    · exact ⟨_, _, by simp only [exec, execSetpix, hn]; rfl, .inr (.inr ⟨_, _, rfl⟩)⟩
    · exact ⟨_, _, by simp only [exec, execSetpix, hn]; rfl, .inl rfl⟩
  | setpixa i r g b a =>
    rcases slotIndex_cases i with ⟨n, _, hn⟩ | ⟨_, hn⟩
    · exact ⟨_, _, by simp only [exec, execSetpixa, hn]; rfl, .inr (.inr ⟨_, _, rfl⟩)⟩
    · exact ⟨_, _, by simp only [exec, execSetpixa, hn]; rfl, .inl rfl⟩
  | setbrt i a =>
    rcases slotIndex_cases i with ⟨n, _, hn⟩ | ⟨_, hn⟩
    · cases hp : s.slot n with
      | none => exact ⟨_, _, by simp only [exec, execSetbrt, hn, hp]; rfl, .inl rfl⟩
      | some p => exact ⟨_, _, by simp only [exec, execSetbrt, hn, hp]; rfl, .inr (.inr ⟨_, _, rfl⟩)⟩
    · exact ⟨_, _, by simp only [exec, execSetbrt, hn]; rfl, .inl rfl⟩
  | xmit | wireStart | wirePixel | wireEnd => simp [Instr.isStoreCommand] at h

/-- What every command leaves alone, XMIT's included: the port, the record of events and what the environment will do. It
is answered at once, or it is the transmit that now runs. -/
theorem exec_command_next (i : Instr) (s : State) (hi : i.isCommand = true) : ∃ t, exec i s = .next t ∧
    t.clk = s.clk ∧ t.dat = s.dat ∧ t.trace = s.trace ∧ t.earlier = s.earlier ∧ t.port = s.port ∧
    t.portStuck = s.portStuck ∧ t.cmds = s.cmds ∧ t.accepted = s.accepted ∧ t.resetLine = s.resetLine ∧
    (∀ n, s.valid n = true → t.valid n = true) ∧
    ((t.seq = s.seq ∧ ∃ r, t.responses = s.responses ++ [r]) ∨
      (t.seq = .sending SeqPos.start ∧ t.responses = s.responses ∧ t.firstInvalid = none)) := by
  by_cases hs : i.isStoreCommand = true
  · obtain ⟨u, r, h1, rfl | ⟨f, rfl⟩ | ⟨n, p, rfl⟩⟩ := exec_store_cases i s hs
    · exact ⟨_, h1, rfl, rfl, rfl, rfl, rfl, rfl, rfl, rfl, rfl, fun _ h => h, .inl ⟨rfl, r, rfl⟩⟩
    · exact ⟨_, h1, rfl, rfl, rfl, rfl, rfl, rfl, rfl, rfl, rfl, fun _ _ => by simp, .inl ⟨rfl, r, rfl⟩⟩
    · exact ⟨_, h1, rfl, rfl, rfl, rfl, rfl, rfl, rfl, rfl, rfl, fun m h => by simpa using valid_writeSlot s n m p h,
        .inl ⟨rfl, r, rfl⟩⟩
  · cases i <;> simp [Instr.isCommand, Instr.isStoreCommand] at hi hs
    simp only [exec, execXmit]
    cases hf : s.firstInvalid with
    | none => exact ⟨_, rfl, rfl, rfl, rfl, rfl, rfl, rfl, rfl, rfl, rfl, fun _ h => h, .inr ⟨rfl, rfl, hf⟩⟩
    | some n => exact ⟨_, rfl, rfl, rfl, rfl, rfl, rfl, rfl, rfl, rfl, rfl, fun _ h => h, .inl ⟨rfl, _, rfl⟩⟩

/-! ## Several steps and several operations -/

theorem after_one (s t : State) (h : step s = .next t) : s.after 1 = some t := by
  simp only [State.after, h]

theorem after_add (m n : Nat) (s t : State) (h : s.after m = some t) : s.after (m + n) = t.after n := by
  induction m generalizing s with
  | zero => simp only [State.after, Option.some.injEq] at h; subst h; simp
  | succ m ih =>
    rw [show m + 1 + n = (m + n) + 1 by omega]
    simp only [State.after] at h ⊢
    cases hs : step s with
    | next u => simp only [hs] at h ⊢; exact ih u h
    | fault _ => simp [hs] at h
    | refused _ => simp [hs] at h

theorem execAll_append (l : List Instr) (i : Instr) (s t u : State) (h : execAll l s = some t) (h2 : exec i t = .next u) :
    execAll (l ++ [i]) s = some u := by
  induction l generalizing s with
  | nil => simp only [execAll, Option.some.injEq] at h; subst h; simp [execAll, h2]
  | cons x xs ih =>
    simp only [execAll, List.cons_append] at h ⊢
    cases hx : exec x s with
    | next v => simp only [hx] at h ⊢; exact ih v h
    | fault _ => simp [hx] at h
    | refused _ => simp [hx] at h

/-- A port that does the next writes does the next one. -/
theorem portAnswer_of_done (s : State) (n : Nat) (h : s.PortDoneFor (n + 1)) : s.portAnswer = .done := by
  have := h 0 (by omega)
  simpa [State.portAnswer, List.headD_eq_head?_getD, List.getD_eq_getElem?_getD, List.head?_eq_getElem?] using this

/-- A host that does not reset in the next steps does not reset in the next one. -/
theorem resetNow_of_noReset (s : State) (n : Nat) (h : s.NoResetFor (n + 1)) : s.resetNow = false := by
  have := h 0 (by omega)
  simpa [State.resetNow, List.headD_eq_head?_getD, List.getD_eq_getElem?_getD, List.head?_eq_getElem?] using this

/-- A host that never resets does not reset in the next step. -/
theorem resetNow_of_not_mem (s : State) (h : true ∉ s.resetLine) : s.resetNow = false := by
  unfold State.resetNow
  cases hl : s.resetLine with
  | nil => rfl
  | cons b t => cases b <;> simp_all

end Sys2Proof.Machine
end

