-- ==== Sys2Proof/Tests/Slice0.lean ====
section
/-! SUPPORT. Tests: expected values are the words and vectors of spec/ (95_test_vectors.md S1 to S14, V1 to V94, P1 to P5),
named in each test. The last part shows, for each statement that has hypotheses, values that meet them. -/

namespace Sys2Proof.Tests.Slice0

open Sys2Proof Sys2Proof.Machine Sys2Proof.Config

/-! ## Small states -/

/-- Every slot holds `p`; idle; both lines LOW. -/
def filled (p : Pixel) : State :=
  { State.reset with pix := Vector.replicate numPixels (some p), clk := .low, dat := .low }

/-- The same state in a transmit at `(k, j, ph)`. -/
def sendingAt (s : State) (k : Fin frameBytes) (j : Fin pulsesPerByte) (ph : Phase) : State :=
  { s with seq := .sending ⟨k, j, ph⟩ }

/-- The next state, where there is one. -/
def nextOf : Host.Outcome State Fault Refusal → Option State
  | .next t => some t
  | .fault _ => none
  | .refused _ => none

/-- The pixel (1, 2, 3) at brightness 9. -/
def dim : Pixel := ⟨1#8, 2#8, 3#8, 9#5⟩

/-- The pixel of S10, (10, 20, 30) at brightness 15. -/
def tenth : Pixel := ⟨10#8, 20#8, 30#8, 15#5⟩

/-! ## WellFormed: an ill-formed term for each check -/

/-- R79: the index field holds 0 to 255. -/
theorem test_wellFormed_index : Instr.wellFormed (.setbrt 255 0) = true ∧ Instr.wellFormed (.setbrt 256 0) = false ∧
    Instr.wellFormed (.setpix (-1) 0 0 0) = false := by decide

/-- R78: a number is a multiple of 1/65536. -/
theorem test_wellFormed_fraction : Instr.wellFormed (.setall 0 0 (mkRat 1 65536)) = true ∧
    Instr.wellFormed (.setall 0 0 (mkRat 1 3)) = false ∧ Instr.wellFormed (.setbrt 0 (mkRat 1 131072)) = false := by decide

/-- R78: the range of a field, V18 and V19, and one unit outside it. -/
theorem test_wellFormed_range : Instr.wellFormed (.setall (mkRat 2147483647 65536) (-32768) 0) = true ∧
    Instr.wellFormed (.setall 32768 0 0) = false ∧ Instr.wellFormed (.setalla 0 0 0 (mkRat (-2147483649) 65536)) = false := by
  decide

/-! ## Decoding, from words written out by the rules R76 to R82 and R72 to R74 -/

/-- V80. -/
theorem test_decode_init : decode 0x000000000000000000000000000000000001#144 = .op .init := by decide

/-- V84: SETPIX ignores field A; idx 0, R 0x01000000, G 0xFFFF0000, B 0x012CB333. -/
theorem test_decode_setpix : decode 0xFFFF8000012CB333FFFF0000010000000002#144 =
    .op (.setpix 0 256 (-1) (mkRat 19706675 65536)) := by decide

/-- P3 step 6: SETPIXA 5, 255, 0, 0, 1.0. -/
theorem test_decode_setpixa : decode 0x00010000000000000000000000FF00000503#144 = .op (.setpixa 5 255 0 0 1) := by decide

/-- P5 step 1: SETALL 1, 2, 3. -/
theorem test_decode_setall : decode 0x000000000003000000020000000100000004#144 = .op (.setall 1 2 3) := by decide

/-- P3 step 2: SETALLA 0, 0, 0, 0.1. -/
theorem test_decode_setalla : decode 0x0000199A0000000000000000000000000005#144 =
    .op (.setalla 0 0 0 (mkRat 6554 65536)) := by decide

/-- P5 step 2: SETBRT 5, -0.5. -/
theorem test_decode_setbrt : decode 0xFFFF80000000000000000000000000000506#144 = .op (.setbrt 5 (mkRat (-1) 2)) := by decide

/-- P3 step 4. -/
theorem test_decode_clear : decode 0x000000000000000000000000000000000007#144 = .op .clear := by decide

/-- P1 step 2. -/
theorem test_decode_xmit : decode 0x000000000000000000000000000000000008#144 = .op .xmit := by decide

/-- V86, V87: reserved opcodes. -/
theorem test_decode_illegal : decode 0#144 = .illegal 0x00#8 ∧ decode 9#144 = .illegal 0x09#8 := by decide

/-- R72: 32 zero bits. -/
theorem test_decode_wireStart : decodeTableWord 32 0 = some .wireStart := by decide

/-- V63: (1, 2, 3) at brightness 0 is sent as E0 03 02 01. -/
theorem test_decode_wirePixel : decodeTableWord 32 0xE0030201 = some (.wirePixel 0 3 2 1) := by decide

/-- R74: the byte 0xFF. -/
theorem test_decode_wireEnd : decodeTableWord 8 0xFF = some .wireEnd := by decide

/-- The words of R86 and P4 step 2. -/
theorem test_encode_commands :
    encode (.setpixa 3 10 20 30 (mkRat 1 2)) = .command 0x00008000001E000000140000000A00000303#144 ∧
    encode (.setpix 8 1 2 3) = .command 0x000000000003000000020000000100000802#144 := by decide

/-- V62 as 32 bits in wire order. -/
theorem test_encode_wirePixel :
    encode (.wirePixel 15 30 20 10) = .wire32 0b11101111000111100001010000001010#32 := by decide

/-- R87: ties go to the even unit, and 1.2 is written 0x00013333. -/
theorem test_fieldOf : fieldOf (mkRat 1 131072) = 0#32 ∧ fieldOf (mkRat 3 131072) = 2#32 ∧
    fieldOf (mkRat 6 5) = 0x00013333#32 := by decide

/-- R84 with P4 step 2 and P5 step 2; a wrong operand count and a negative index are no line. -/
theorem test_assemble : assembleLine "SETPIX 8, 1, 2, 3".toList = some 0x000000000003000000020000000100000802#144 ∧
    assembleLine "SETBRT 5, -0.5".toList = some 0xFFFF80000000000000000000000000000506#144 ∧
    assembleLine "SETBRT 5".toList = none ∧ assembleLine "SETBRT -1, 0.5".toList = none := by decide

/-! ## Numbers -/

/-- V4, V6, V9, V10, V13, V14. -/
theorem test_col8 : [col8 256, col8 (mkRat 3007 10), col8 (-1), col8 (mkRat (-1) 2), col8 (mkRat (-3) 2),
    col8 (mkRat (-2559) 10)] = [0#8, 44#8, 255#8, 0#8, 255#8, 1#8] := by decide

/-- V21, V22, V26, V28, V29, V31: truncation, not floor. -/
theorem test_brt5 : [brt5 1, brt5 (mkRat 1 2), brt5 (mkRat 6 5), brt5 (fieldValue 0x00000842#32),
    brt5 (fieldValue 0x00000843#32), brt5 (mkRat (-1) 2)] = [31#5, 15#5, 5#5, 0#5, 1#5, 17#5] := by decide

/-! ## One instruction each -/

/-- V41: INIT sets brightness too. -/
theorem test_init : (nextOf (exec .init (filled ⟨0, 0, 0, 3⟩))).map (fun t => (t.slot 0, t.slot 7, t.codes)) =
    some (some ⟨255, 255, 255, 31⟩, some ⟨255, 255, 255, 31⟩, [0#3]) := by decide

/-- V42: from reset a slot comes out at brightness 31, the others stay empty. -/
theorem test_setpix_empty : (nextOf (exec (.setpix 2 1 2 3) State.reset)).map (fun t => (t.slot 2, t.slot 1, t.codes)) =
    some (some ⟨1, 2, 3, 31⟩, none, [0#3]) := by decide

/-- P3 step 3: wraps, and keeps the brightness; V44: index 8 changes nothing. -/
theorem test_setpix_wraps :
    (nextOf (exec (.setpix 0 256 (-1) (mkRat 19706675 65536)) (filled ⟨0, 0, 0, 3⟩))).map (fun t => t.slot 0) =
      some (some ⟨0, 255, 44, 3⟩) ∧
    (nextOf (exec (.setpix 8 1 2 3) (filled dim))).map (fun t => (t.pix, t.codes)) = some ((filled dim).pix, [1#3]) := by decide

/-- V46 (S10). -/
theorem test_setpixa : (nextOf (exec (.setpixa 3 10 20 30 (mkRat 1 2)) State.reset)).map (fun t => (t.slot 3, t.codes)) =
    some (some tenth, [0#3]) := by decide

/-- V48: each slot keeps its own brightness. -/
theorem test_setall :
    (nextOf (exec (.setall 1 2 3) (State.reset.writeSlot 0 ⟨5, 5, 5, 7⟩))).map (fun t => (t.slot 0, t.slot 7)) =
      some (some ⟨1, 2, 3, 7⟩, some ⟨1, 2, 3, 31⟩) := by decide

/-- P3 step 2. -/
theorem test_setalla : (nextOf (exec (.setalla 0 0 0 (mkRat 6554 65536)) State.reset)).map (fun t => (t.slot 0, t.slot 7)) =
    some (some ⟨0, 0, 0, 3⟩, some ⟨0, 0, 0, 3⟩) := by decide

/-- V50, and P5 step 2 for a negative fraction. -/
theorem test_setbrt :
    (nextOf (exec (.setbrt 7 (mkRat 78643 65536)) (filled ⟨255, 255, 255, 31⟩))).map (fun t => (t.slot 7, t.slot 6)) =
      some (some ⟨255, 255, 255, 5⟩, some ⟨255, 255, 255, 31⟩) ∧
    (nextOf (exec (.setbrt 5 (mkRat (-1) 2)) (filled dim))).map (fun t => t.slot 5) = some (some ⟨1, 2, 3, 17⟩) := by decide

/-- V51, V52: the index is checked before the slot. -/
theorem test_setbrt_faults : (nextOf (exec (.setbrt 1 (mkRat 1 2)) State.reset)).map State.codes = some [2#3] ∧
    (nextOf (exec (.setbrt 9 (mkRat 1 2)) State.reset)).map State.codes = some [1#3] := by decide

/-- V53, V54. -/
theorem test_clear : (nextOf (exec .clear (filled ⟨0, 0, 0, 3⟩))).map (fun t => t.slot 4) = some (some ⟨255, 255, 255, 3⟩) ∧
    (nextOf (exec .clear State.reset)).map (fun t => t.slot 4) = some (some ⟨255, 255, 255, 31⟩) := by decide

/-- V90: slot 5 is empty. -/
theorem test_xmit_empty_slot :
    (nextOf (exec .xmit { filled dim with pix := (filled dim).pix.set 5 none })).map
      (fun t => (t.responses, t.seq, t.trace)) = some ([.fault (.pixelNotInitialized 5)], .idle, []) := by decide

/-- R138: an accepted XMIT is at (0, 0, 0), with no event and no response yet. -/
theorem test_xmit_starts : (nextOf (exec .xmit (filled dim))).map (fun t => (t.busy, t.seq == .sending SeqPos.start, t.codes)) =
    some (true, true, []) := by decide

/-- V75, V91: the 4th write, the data write of bit 1, is (DAT, LOW); it fails. -/
theorem test_wireStart : (nextOf (exec .wireStart (sendingAt { filled dim with port := [.fail] } ⟨0, by decide⟩ ⟨1, by decide⟩
    .data))).map (fun t => (t.trace, t.codes, t.seq)) = some ([⟨.dat, .low⟩], [3#3], .idle) := by decide

/-- V62, V76: bit 3 of the header byte 0xEF is 0, bit 4 is 1. -/
theorem test_wirePixel :
    (nextOf (exec (.wirePixel 15 30 20 10) (sendingAt (filled tenth) ⟨4, by decide⟩ ⟨3, by decide⟩ .data))).map
      (fun t => (t.trace, t.dat)) = some ([⟨.dat, .low⟩], .low) ∧
    (nextOf (exec (.wirePixel 15 30 20 10) (sendingAt (filled tenth) ⟨4, by decide⟩ ⟨4, by decide⟩ .data))).map
      (fun t => (t.trace, t.dat)) = some ([⟨.dat, .high⟩], .high) := by decide

/-- V93: a clock-LOW write (number 500) that never returns. -/
theorem test_wirePixel_never :
    (nextOf (exec (.wirePixel 9 3 2 1) (sendingAt { filled dim with port := [.never] } ⟨20, by decide⟩ ⟨6, by decide⟩
      .clockLow))).map (fun t => (t.trace, t.codes, t.busy, t.portStuck)) = some ([⟨.clk, .low⟩], [], true, true) := by decide

/-- V77: the last write ends the command, with CLK LOW. -/
theorem test_wireEnd :
    (nextOf (exec .wireEnd (sendingAt { filled dim with clk := .high, dat := .high } ⟨36, by decide⟩ ⟨7, by decide⟩
      .clockLow))).map (fun t => (t.clk, t.dat, t.seq, t.codes)) = some (.low, .high, .idle, [0#3]) := by decide

/-! ## The step, decoder and reset -/

/-- Every command row runs as the first step after reset: its response, P4 steps 1 to 4 among them. -/
theorem test_withFetchWord_commands :
    ([0x01, 0x02, 0x03, 0x04, 0x05, 0x06, 0x07, 0x08, 0x00].map fun w =>
      (nextOf (step (State.reset.withFetchWord 144 w))).map State.codes) =
    [some [0#3], some [0#3], some [0#3], some [0#3], some [0#3], some [2#3], some [0#3], some [2#3], some [4#3]] := by decide

/-- Every wire frame is sent as the first step after reset: its first bit is put on DAT. -/
theorem test_withFetchWord_frames :
    ([(32, 0), (32, 0xE0000000), (8, 0xFF)].map fun (n, w) =>
      (nextOf (step (State.reset.withFetchWord n w))).map State.trace) =
    [some [⟨.dat, .low⟩], some [⟨.dat, .high⟩], some [⟨.dat, .high⟩]] := by decide

/-- R203: a reset in a transmit empties the trace and the store; the events stay in the observation. -/
theorem test_reset_in_transmit :
    (nextOf (step { sendingAt (filled dim) ⟨0, by decide⟩ ⟨0, by decide⟩ .clockHigh with
      trace := [⟨.dat, .low⟩], resetLine := [true] })).map (fun t => (t.slot 0, t.seq, t.trace, t.observed)) =
    some (none, .idle, [], [⟨.dat, .low⟩]) := by decide

/-- P4 steps 1 to 4 as a run from reset: over, with a response to each word and no event. -/
theorem test_run_is_over :
    ((State.reset.startRun [0x000080000000000000000000000000000006#144, 0x000000000003000000020000000100000802#144,
      0x000000000000000000000000000000000008#144, 0x000000000003000000020000000100000002#144] []).after 4).map
      (fun t => (t.cmds.isEmpty, t.busy, t.accepted, t.runResult.codes, t.runResult.events)) =
    some (true, false, 4, [2#3, 1#3, 2#3, 0#3], []) := by decide

/-- R203, R204: a reset cuts off the only XMIT of a run: idle, nothing waits, no fault, but the run is not over. -/
theorem test_run_cut_off :
    (State.after 3 { (filled dim).startRun [0x000000000000000000000000000000000008#144] [] with
      resetLine := [false, false, true] }).map (fun t => (t.cmds, t.seq, t.codes, t.accepted, t.observed)) =
    some ([], .idle, [], 1, [⟨.dat, .low⟩]) := by decide

/-- V72: the data levels of 0xEF. -/
theorem test_byteEvents : byteEvents 0xEF#8 =
    bitEvents true ++ bitEvents true ++ bitEvents true ++ bitEvents false ++ bitEvents true ++ bitEvents true ++
    bitEvents true ++ bitEvents true := by decide

/-- P2: bytes 16 to 19 and 36 of the frame. -/
theorem test_frameByte : [16, 17, 18, 19, 36].map (frameByte fun i => if i = 3 then tenth else defaultPixel) =
    [0xEF#8, 0x1E#8, 0x14#8, 0x0A#8, 0xFF#8] := by decide

/-! ## Values that meet the hypotheses of the statements, at the ends of their ranges -/

/-- The word of an opcode with zeros in the fields. -/
def bare (op : Byte) : CmdWord := packCommand op 0 0 0 0 0

theorem shows_filled (p : Pixel) : (filled p).Shows fun _ => p := by
  intro i
  simp [State.slot, filled, Vector.get_eq_getElem]

theorem shows_sendingAt (p : Pixel) (k : Fin frameBytes) (j : Fin pulsesPerByte) (ph : Phase) :
    (sendingAt (filled p) k j ph).Shows fun _ => p := shows_filled p

/-- One slot dimmed and one never written. -/
def mixed : State := (State.reset.writeSlot 0 dim).writeSlot 7 ⟨4, 5, 6, 31⟩

/-- A full store with a list of words presented. -/
def presenting (ws : List CmdWord) : State := { filled dim with cmds := ws }

theorem witness_ResetEventEmptiesTheBlock : State.resetNow { filled dim with resetLine := [true] } = true := by decide

theorem witness_StepRunsTheAcceptedCommand : (presenting [bare 0x01]).resetNow = false ∧
    (presenting [bare 0x01]).portStuck = false ∧ (presenting [bare 0x01]).seq = .idle ∧
    (presenting [bare 0x01]).cmds = bare 0x01 :: [] ∧ decode (bare 0x01) = .op .init := by decide

theorem witness_StepRunsTheWireFrame : ∀ k : Fin frameBytes, ∃ s : State, ∃ p, s.resetNow = false ∧ s.portStuck = false ∧
    s.seq = .sending p ∧ p.k = k ∧ ∀ n, s.slot n = some dim :=
  fun k => ⟨sendingAt (filled dim) k ⟨7, by decide⟩ .clockLow, _, rfl, rfl, rfl, rfl, shows_filled dim⟩

/-- The ends of the three clauses: bytes 0 and 3, 4 (pixel 0, byte 0) and 35 (pixel 7, byte 3), 36. -/
theorem witness_StepRunsTheWireFrame_ends : (0 ≤ 3 ∧ 3 ≤ 3) ∧ (4 = 4 + 4 * (0 : Fin numPixels).val + (0 : Fin 4).val) ∧
    (35 = 4 + 4 * (7 : Fin numPixels).val + (3 : Fin 4).val) ∧ 35 < 36 := by decide

theorem witness_ReservedOpcodeIsAnswered : (presenting [bare 0x00]).resetNow = false ∧
    (presenting [bare 0x00]).portStuck = false ∧ (presenting [bare 0x00]).seq = .idle ∧ opField (bare 0x00) = 0x00#8 ∧
    0x09#8 ≤ opField (bare 0x09) ∧ 0x09#8 ≤ opField (bare 0xFF) := by decide

theorem witness_BusyAcceptsNothing :
    (sendingAt (filled dim) ⟨0, by decide⟩ ⟨0, by decide⟩ .data).ready = false ∧
    State.ready { filled dim with portStuck := true } = false ∧
    ∃ t, step (sendingAt (filled dim) ⟨0, by decide⟩ ⟨0, by decide⟩ .data) = .next t :=
  ⟨by decide, by decide, _, rfl⟩

theorem witness_IdleBlockWaits : (filled dim).resetNow = false ∧ (filled dim).seq = .idle ∧ (filled dim).cmds = [] := by
  decide

theorem witness_DecodeOfEncode : Instr.wellFormed (.setpixa 255 (-32768) (mkRat 2147483647 65536) 0 (mkRat (-1) 65536)) =
    true ∧ Instr.wellFormed (.setbrt 0 1) = true ∧ Instr.wellFormed (.wirePixel 31 255 0 255) = true := by decide

/-- Both sides: V80 has zeros in its unused fields, V81 has not. -/
theorem witness_EncodeOfDecode : decode (bare 0x01) = .op .init ∧ unusedFieldsZero (bare 0x01) = true ∧
    decode 0x123456789ABCDEF0123456789ABCDEF0FF01#144 = .op .init ∧
    unusedFieldsZero 0x123456789ABCDEF0123456789ABCDEF0FF01#144 = false := by decide

theorem witness_UnusedFieldsAreIgnored : ∃ op : Byte, op = 0x01#8 ∨ op = 0x07#8 ∨ op = 0x08#8 := ⟨0x07#8, by decide⟩

theorem witness_DecodedIsWellFormed : decode (packCommand 0x06 0xFF 0 0 0 0x80000000) = .op (.setbrt 255 (-32768)) := by
  decide

theorem witness_TruncIsTowardZero : (0 : Rat) ≤ mkRat 31 2 ∧ mkRat (-31) 2 ≤ (0 : Rat) ∧ trunc (mkRat 31 2) = 15 ∧
    trunc (mkRat (-31) 2) = -15 ∧ trunc 0 = 0 := by decide

/-- The clause of SETBRT about fractions that are not negative. -/
theorem witness_SetbrtWritesBrightnessAlone : (0 : Rat) ≤ 0 ∧ (0 : Rat) ≤ mkRat 6 5 ∧ brt5 (mkRat 6 5) = 5#5 := by decide

/-- Each law at the ends of its range: 65535/65536 on either side of 0, one unit below 1/31, the numbers 0 and -256. -/
theorem witness_WrapPeriods : ((-1 : Rat) < mkRat (-65535) 65536 ∧ mkRat 65535 65536 < (1 : Rat)) ∧
    ((-1 : Rat) / 31 < mkRat (-2114) 65536 ∧ mkRat 2114 65536 < (1 : Rat) / 31) ∧ (0 : Rat) ≤ 0 ∧ (-256 : Rat) + 256 ≤ 0 := by
  norm_num [Rat.mkRat_eq_div]

theorem witness_FieldRounding : fieldUnits (-32768) = -2147483648 ∧ fieldUnits (mkRat 2147483647 65536) = 2147483647 ∧
    fieldUnits (mkRat 6 5) = 78643 ∧ (-32768 : Rat) * 65536 = (-2147483648 : Int) :=
  ⟨by decide, by decide, by decide, by norm_num⟩

theorem witness_AssembledWordDecodes : assembleOperation (.setbrt 7 (mkRat 6 5)) =
    some 0x000133330000000000000000000000000706#144 := by decide

/-! The opcode of each clause about words, the slots and the indices of each clause about states. -/

theorem witness_opcodes : [0x01, 0x02, 0x03, 0x04, 0x05, 0x06, 0x07, 0x08].map (fun o => opField (bare o)) =
    [0x01#8, 0x02#8, 0x03#8, 0x04#8, 0x05#8, 0x06#8, 0x07#8, 0x08#8] := by decide

/-- SETPIX, SETPIXA, SETALL, SETBRT, CLEAR and XMIT: a slot that holds a pixel (0 and 7), one that does not (1). -/
theorem witness_slots : mixed.slot 0 = some dim ∧ mixed.slot 7 = some ⟨4, 5, 6, 31⟩ ∧ mixed.slot 1 = none ∧
    (1 : Fin numPixels) ≠ 0 := by decide

/-- SETPIX, SETPIXA and SETBRT: the least index above the store and the greatest below it. -/
theorem witness_indices : ((8 : Int) < 0 ∨ 7 < (8 : Int)) ∧ ((-1 : Int) < 0 ∨ 7 < (-1 : Int)) := by decide

theorem witness_ClearDiffersFromInitInBrightness : ∃ t u, exec .clear mixed = .next t ∧ exec .init mixed = .next u ∧
    t.slot 0 = some ⟨255, 255, 255, 9⟩ ∧ u.slot 0 = some ⟨255, 255, 255, 31⟩ ∧ t.slot 7 = u.slot 7 :=
  ⟨_, _, rfl, rfl, by decide, by decide, by decide⟩

/-- With a fault and without. -/
theorem witness_StoreCommandsAreIdempotent : Instr.isStoreCommand (.setbrt 1 0) = true ∧
    (nextOf (exec (.setbrt 1 0) mixed)).isSome = true ∧ (nextOf (exec (.setbrt 0 0) mixed)).isSome = true := by decide

theorem witness_StoreCommandsLeaveThePortAlone : Instr.isStoreCommand .init = true := rfl

/-- XMIT, SETPIX and SETBRT, each with its fault. -/
theorem witness_FaultsChangeNothing :
    [exec .xmit mixed, exec (.setpix 8 0 0 0) mixed, exec (.setbrt 1 0) mixed].map
      (fun o => (nextOf o).map State.responses) =
    [some [.fault (.pixelNotInitialized 1)], some [.fault (.indexOutOfRange 8)], some [.fault (.pixelNotInitialized 1)]] := by
  decide

/-- The least empty slot of `mixed` is 1; `filled` has none. -/
theorem witness_XmitChecksThenStarts : (mixed.slot 1 = none ∧ ∀ m : Fin numPixels, m < 1 → mixed.slot m ≠ none) ∧
    ∀ n : Fin numPixels, (filled dim).slot n ≠ none := by decide

/-- Bytes 0 and 3; bytes 4 and 35; byte 36 with the first write of its first bit and with the last write (number 887). -/
theorem witness_WireFrames :
    (sendingAt (filled dim) ⟨0, by decide⟩ ⟨0, by decide⟩ .data).portAnswer = .done ∧
    (∀ k : Fin frameBytes, ∃ p, (sendingAt (filled dim) k ⟨7, by decide⟩ .clockLow).seq = .sending p ∧ p.k = k) ∧
    SeqPos.number ⟨⟨36, by decide⟩, ⟨0, by decide⟩, .data⟩ < 887 ∧
    SeqPos.number ⟨⟨36, by decide⟩, ⟨7, by decide⟩, .clockLow⟩ = 887 :=
  ⟨by decide, fun _ => ⟨_, rfl, rfl⟩, by decide, by decide⟩

/-- V92: clock HIGH of bit 32 fails. -/
theorem witness_FailedWriteAborts : ∃ s : State, ∃ p px, s.resetNow = false ∧ s.portStuck = false ∧ s.seq = .sending p ∧
    s.Shows px ∧ s.portAnswer = .fail ∧ p.number = 97 :=
  ⟨{ sendingAt (filled dim) ⟨4, by decide⟩ ⟨0, by decide⟩ .clockHigh with port := [.fail] }, _, _, rfl, rfl, rfl,
    shows_filled dim, rfl, by decide⟩

/-- V93: the write of number 500 does not return; and a stuck state that is not reset. -/
theorem witness_StuckWriteHangs : (∃ s : State, ∃ p px, s.resetNow = false ∧ s.portStuck = false ∧ s.seq = .sending p ∧
    s.Shows px ∧ s.portAnswer = .never ∧ p.number = 500) ∧
    ∃ s : State, s.portStuck = true ∧ s.NoResetFor 3 :=
  ⟨⟨{ sendingAt (filled dim) ⟨20, by decide⟩ ⟨6, by decide⟩ .clockLow with port := [.never] }, _, _, rfl, rfl, rfl,
    shows_filled dim, rfl, by decide⟩, { filled dim with portStuck := true }, rfl, fun _ _ => by simp [filled, State.reset]⟩

theorem portDone_presenting (ws : List CmdWord) (n : Nat) : (presenting ws).PortDoneFor n := by
  intro m _; simp [presenting, filled, State.reset]

theorem noReset_presenting (ws : List CmdWord) (n : Nat) : (presenting ws).NoResetFor n := by
  intro m _; simp [presenting, filled, State.reset]

theorem witness_TransmitSendsTheFrame : ∃ s : State, ∃ px w rest, s.Shows px ∧ s.seq = .idle ∧ s.portStuck = false ∧
    s.cmds = w :: rest ∧ decode w = .op .xmit ∧ s.PortDoneFor 888 ∧ s.NoResetFor 889 :=
  ⟨presenting [bare 0x08], _, _, _, shows_filled dim, rfl, rfl, rfl, by decide, portDone_presenting _ _,
    noReset_presenting _ _⟩

theorem witness_RepeatedTransmitSendsTheSame : ∃ s : State, ∃ px v w rest, s.Shows px ∧ s.seq = .idle ∧
    s.portStuck = false ∧ s.cmds = v :: w :: rest ∧ decode v = .op .xmit ∧ decode w = .op .xmit ∧ s.PortDoneFor 1776 ∧
    s.NoResetFor 1778 :=
  ⟨presenting [bare 0x08, bare 0x08], _, _, _, _, shows_filled dim, rfl, rfl, rfl, by decide, by decide,
    portDone_presenting _ _, noReset_presenting _ _⟩

/-- Idle; at the first write of a transmit; and in a hang at it. -/
theorem witness_StepKeepsTheInvariant : (presenting [bare 0x08]).Inv ∧
    (sendingAt (filled dim) ⟨0, by decide⟩ ⟨0, by decide⟩ .data).Inv ∧
    State.Inv { sendingAt (filled dim) ⟨0, by decide⟩ ⟨0, by decide⟩ .data with
      portStuck := true, trace := [⟨.dat, .low⟩] } :=
  ⟨rfl, ⟨fun _ => dim, [], shows_filled dim, rfl, fun _ => .inl rfl⟩,
    ⟨fun _ => dim, [], shows_filled dim, by decide, fun h => by cases h⟩⟩

theorem witness_ValidUntilReset : (presenting [bare 0x07]).resetNow = false ∧ (presenting [bare 0x07]).valid 7 = true ∧
    ∃ t, step (presenting [bare 0x07]) = .next t :=
  ⟨by decide, by decide, _, rfl⟩

theorem witness_StoreIsConstantWhileBusy :
    (sendingAt (filled dim) ⟨36, by decide⟩ ⟨7, by decide⟩ .clockLow).resetNow = false ∧
    (sendingAt (filled dim) ⟨36, by decide⟩ ⟨7, by decide⟩ .clockLow).busy = true ∧
    ∃ t, step (sendingAt (filled dim) ⟨36, by decide⟩ ⟨7, by decide⟩ .clockLow) = .next t :=
  ⟨by decide, by decide, _, rfl⟩

/-- A reset, an event and a response. -/
theorem witness_RecordOnlyGrows : (∃ t, step { filled dim with resetLine := [true] } = .next t) ∧
    (∃ t, step (sendingAt (filled dim) ⟨0, by decide⟩ ⟨0, by decide⟩ .data) = .next t ∧ t.observed = [⟨.dat, .low⟩]) ∧
    ∃ t, step (presenting [bare 0x01]) = .next t ∧ t.responses = [.ok] := ⟨⟨_, rfl⟩, ⟨_, rfl, rfl⟩, _, rfl, rfl⟩

theorem witness_OnlyTransmitsWriteThePort : (presenting [bare 0x08]).resetNow = false ∧ (presenting [bare 0x08]).seq = .idle ∧
    ∃ t, step (presenting [bare 0x08]) = .next t := ⟨by decide, by decide, _, rfl⟩

theorem witness_EventsIgnoreTheLinesAndTheRecord :
    (sendingAt (filled dim) ⟨4, by decide⟩ ⟨0, by decide⟩ .data).portAnswer = .done ∧
    (sendingAt (filled dim) ⟨4, by decide⟩ ⟨0, by decide⟩ .data).resetNow = false ∧
    ∃ t, step (sendingAt (filled dim) ⟨4, by decide⟩ ⟨0, by decide⟩ .data) = .next t :=
  ⟨by decide, by decide, _, rfl⟩

/-- A port that fails once, three words, no word of before. -/
theorem witness_EveryRunEndsIfEveryWriteReturns : ∃ s : State, s.Inv ∧ s.seq = .idle ∧ PortOutcome.never ∉ s.port ∧ true ∉ s.resetLine ∧
    s.cmds.length = 3 ∧ s.responses.length = s.accepted :=
  ⟨{ (filled dim).startRun [bare 0x08, bare 0x00, bare 0x01] [.done, .fail] with resetLine := [false] }, rfl, rfl,
    by decide, by decide, rfl, rfl⟩

/-- A step that takes a word, and one that takes none. -/
theorem witness_WordsAreTakenInOrder : (∃ t, step (presenting [bare 0x08, bare 0x01]) = .next t ∧ t.cmds = [bare 0x01]) ∧
    ∃ t, step { presenting [bare 0x08] with resetLine := [true] } = .next t ∧ t.cmds = [bare 0x08] :=
  ⟨⟨_, rfl, rfl⟩, _, rfl, rfl⟩

/-- The first write of a transmit, whose XMIT is the one word accepted. -/
def transmitting : State := { sendingAt (filled dim) ⟨0, by decide⟩ ⟨0, by decide⟩ .data with accepted := 1 }

/-- Not reset and reset. -/
theorem witness_ResponsesMatchAcceptedWords : transmitting.Counted ∧ transmitting.resetNow = false ∧
    (∃ t, step transmitting = .next t) ∧ State.resetNow { transmitting with resetLine := [true] } = true ∧
    ∃ t, step { transmitting with resetLine := [true] } = .next t :=
  ⟨by unfold State.Counted; decide, by decide, ⟨_, rfl⟩, by decide, _, rfl⟩

theorem witness_RunCutOffIsNeverOver : State.Counted { transmitting with resetLine := [true] } ∧
    State.busy { transmitting with resetLine := [true] } = true ∧
    State.resetNow { transmitting with resetLine := [true] } = true ∧
    ∃ t, State.after (0 + 1) { transmitting with resetLine := [true] } = some t :=
  ⟨by unfold State.Counted; decide, by decide, by decide, _, rfl⟩

end Sys2Proof.Tests.Slice0
end

namespace Sys2Proof.Machine

/-! ## Truncation (spec/00_scope.md R10) -/

/-- Of a number that is not negative, truncation gives the integer part, between 0 and the number and less than 1 away. -/
theorem trunc_between_of_nonneg (q : Rat) (h : 0 ≤ q) : 0 ≤ (trunc q : Rat) ∧ (trunc q : Rat) ≤ q ∧ q < trunc q + 1 := by
  rw [trunc_of_nonneg q h]
  exact ⟨by exact_mod_cast Int.floor_nonneg.mpr h, Int.floor_le q, Int.lt_floor_add_one q⟩

/-- Settles O16: the law for numbers that are not negative, and its mirror image, for truncation is odd. -/
theorem truncIsTowardZero : Obligations.TruncIsTowardZero := by
  intro q
  refine ⟨trunc_between_of_nonneg q, fun h => ?_⟩
  obtain ⟨h1, h2, h3⟩ := trunc_between_of_nonneg (-q) (neg_nonneg.mpr h)
  rw [trunc_neg] at h1 h2 h3
  push_cast at h1 h2 h3
  exact ⟨by linarith, by linarith, by linarith⟩

/-! ## The record of a run (spec/00_scope.md R8, spec/70_reset_and_hazards.md R203) -/

/-- What the decoder gives is a command, never a wire frame (spec/30_encoding.md R80). -/
theorem isCommand_of_decode {w : CmdWord} {i : Instr} (h : decode w = .op i) : i.isCommand = true := by
  rcases decode_cases w with ⟨-, hd⟩ | ⟨-, hd⟩ | ⟨-, hd⟩ | ⟨-, hd⟩ | ⟨-, hd⟩ | ⟨-, hd⟩ | ⟨-, hd⟩ | ⟨-, hd⟩ | ⟨-, hd⟩ <;>
    rw [hd] at h <;> cases h <;> rfl

/-- The observation and the responses of `t` are those of `s` and at most one more of each. -/
def State.RecordGrowsTo (s t : State) : Prop :=
  (∃ es, t.observed = s.observed ++ es ∧ es.length ≤ 1) ∧ ∃ rs, t.responses = s.responses ++ rs ∧ rs.length ≤ 1

theorem State.recordGrowsTo_of_eq {s t : State} (ho : t.observed = s.observed) (hr : t.responses = s.responses) :
    s.RecordGrowsTo t :=
  ⟨⟨[], by simpa using ho, by simp⟩, [], by simpa using hr, by simp⟩

/-- Where the events of before a reset are kept, the observation grows as the trace does. -/
theorem State.observed_append {s t : State} {es : List Event} (he : t.earlier = s.earlier) (ht : t.trace = s.trace ++ es) :
    t.observed = s.observed ++ es := by
  simp [State.observed, he, ht]

/-- A reset moves the trace to the events of before: nothing observed is lost. -/
@[simp] theorem State.observed_hostReset (s : State) : s.hostReset.observed = s.observed := by
  simp [State.observed]

/-- A command makes no event and gives at most one response. -/
theorem recordGrows_command {i : Instr} {s t : State} (hi : i.isCommand = true) (h : exec i s = .next t) :
    s.RecordGrowsTo t := by
  obtain ⟨u, hu, -, -, htrace, hearlier, -, -, -, -, -, -, hend⟩ := exec_command_next i s hi
  rw [h] at hu
  cases hu
  refine ⟨⟨[], State.observed_append hearlier (by simpa using htrace), by simp⟩, ?_⟩
  rcases hend with ⟨-, r, hr⟩ | ⟨-, hr, -⟩
  · exact ⟨_, hr, by simp⟩
  · exact ⟨[], by simpa using hr, by simp⟩

/-- A port write is one event, whatever the port answers, and gives at most one response. -/
theorem recordGrows_sendWrite {p : SeqPos} {v : Byte} {s t : State} (h : sendWrite p v s = .next t) :
    s.RecordGrowsTo t := by
  obtain ⟨u, hu, -, -, -, hearlier, -, htrace, hresp, -⟩ := sendWrite_next p v s
  rw [h] at hu
  cases hu
  refine ⟨⟨_, State.observed_append hearlier htrace, by simp⟩, ?_⟩
  rcases hresp with hr | hr | hr
  · exact ⟨[], by simpa using hr, by simp⟩
  · exact ⟨_, hr, by simp⟩
  · exact ⟨_, hr, by simp⟩

/-- Settles O54: by what a step can be. -/
theorem recordOnlyGrows : Obligations.RecordOnlyGrows := by
  intro s t h
  change s.RecordGrowsTo t
  rcases step_cases s t h with ⟨-, rfl⟩ | ⟨-, -, rfl⟩ | ⟨-, -, -, -, rfl⟩ | ⟨-, -, -, w, rest, o, -, -, rfl⟩ |
    ⟨-, -, -, w, rest, i, -, hd, hx⟩ | ⟨-, -, p, i, v, -, -, -, hw⟩
  · exact State.recordGrowsTo_of_eq (State.observed_hostReset _) rfl
  · exact State.recordGrowsTo_of_eq rfl rfl
  · exact State.recordGrowsTo_of_eq rfl rfl
  · exact ⟨⟨[], State.observed_append rfl (by simp), by simp⟩, [_], rfl, by simp⟩
  · exact recordGrows_command (s := s.sampleReset.consume rest) (isCommand_of_decode hd) hx
  · exact recordGrows_sendWrite (s := s.sampleReset) hw

/-! ## What a step depends on (spec/00_scope.md R6, spec/41_transmit.md R139)

An effect is a store, a position, and the events and responses that are added. That an operation has one effect in every state
with the same store, position and inputs says that nothing else is read. -/

/-- The outcome `o` of an operation on `s` is a next state with this store and this position, and with these events and
responses after those of `s`. -/
def State.HasEffect (s : State) (o : Host.Outcome State Fault Refusal) (pix : Vector (Option Pixel) Config.numPixels)
    (seq : Seq) (es : List Event) (rs : List Response) : Prop :=
  ∃ t, o = .next t ∧ t.pix = pix ∧ t.seq = seq ∧ t.trace = s.trace ++ es ∧ t.responses = s.responses ++ rs

/-- All that a step reads: the two states may differ in the trace, the record, the line levels and the free values taken. -/
structure State.SameInputs (s u : State) : Prop where
  pix : u.pix = s.pix
  seq : u.seq = s.seq
  cmds : u.cmds = s.cmds
  port : u.port = s.port
  resetLine : u.resetLine = s.resetLine
  portStuck : u.portStuck = s.portStuck

theorem State.slot_congr {s u : State} (h : u.pix = s.pix) (n : Fin Config.numPixels) : u.slot n = s.slot n := by
  simp [State.slot, h]

theorem State.firstInvalid_congr {s u : State} (h : u.pix = s.pix) : u.firstInvalid = s.firstInvalid := by
  simp [State.firstInvalid, State.valid, State.slot_congr h]

theorem State.frameInHand_congr {s u : State} (h : u.pix = s.pix) (p : SeqPos) : u.frameInHand p = s.frameInHand p := by
  simp [State.frameInHand, State.slot_congr h]

/-- A step that does nothing but sample the reset line has no effect. -/
theorem State.hasEffect_sampleReset {s u : State} (hp : u.pix = s.pix) (hq : u.seq = s.seq) :
    u.HasEffect (.next u.sampleReset) s.pix s.seq [] [] :=
  ⟨_, rfl, hp, hq, by simp, by simp⟩

/-- A fault changes nothing and adds its response. -/
theorem State.hasEffect_raise {s u : State} (f : Fault) (hp : u.pix = s.pix) (hq : u.seq = s.seq) :
    u.HasEffect (raise f u) s.pix s.seq [] [.fault f] :=
  ⟨_, rfl, hp, hq, by simp, rfl⟩

/-- A command that writes one slot adds the response OK. -/
theorem State.hasEffect_writeSlot {s u : State} (n : Fin Config.numPixels) (x : Pixel) (hp : u.pix = s.pix)
    (hq : u.seq = s.seq) : u.HasEffect (complete (u.writeSlot n x)) (s.writeSlot n x).pix s.seq [] [.ok] :=
  ⟨_, rfl, by simp [hp], hq, by simp, rfl⟩

/-- A command that writes every slot, each from its own content, adds the response OK. -/
theorem State.hasEffect_writeAll {s u : State} (f : Option Pixel → Pixel) (hp : u.pix = s.pix) (hq : u.seq = s.seq) :
    u.HasEffect (complete (u.writeAll f)) (s.writeAll f).pix s.seq [] [.ok] :=
  ⟨_, rfl, by simp [State.slot_congr hp], hq, by simp, rfl⟩

/-- The effect of a command is settled by the store and the position; it makes no event. -/
theorem exec_command_hasEffect (i : Instr) (s : State) (hi : i.isCommand = true) :
    ∃ pix seq rs, ∀ u : State, u.pix = s.pix → u.seq = s.seq → u.HasEffect (exec i u) pix seq [] rs := by
  cases i with
  | init | setall | setalla | clear => exact ⟨_, _, _, fun _ hp hq => State.hasEffect_writeAll _ hp hq⟩
  | setpix i r g b =>
    simp only [exec, execSetpix]
    cases slotIndex i with
    | none => exact ⟨_, _, _, fun _ hp hq => State.hasEffect_raise _ hp hq⟩
    | some n =>
      refine ⟨(s.writeSlot n (recolour r g b (s.slot n))).pix, s.seq, [.ok], fun u hp hq => ?_⟩
      simp only [State.slot_congr hp n]
      exact State.hasEffect_writeSlot n _ hp hq
  | setpixa i r g b a =>
    simp only [exec, execSetpixa]
    cases slotIndex i with
    | none => exact ⟨_, _, _, fun _ hp hq => State.hasEffect_raise _ hp hq⟩
    | some n => exact ⟨_, _, _, fun _ hp hq => State.hasEffect_writeSlot n _ hp hq⟩
  | setbrt i a =>
    simp only [exec, execSetbrt]
    cases slotIndex i with
    | none => exact ⟨_, _, _, fun _ hp hq => State.hasEffect_raise _ hp hq⟩
    | some n =>
      cases hn : s.slot n with
      | none =>
        refine ⟨s.pix, s.seq, [.fault (.pixelNotInitialized n)], fun u hp hq => ?_⟩
        simp only [State.slot_congr hp n, hn]
        exact State.hasEffect_raise _ hp hq
      | some x =>
        refine ⟨(s.writeSlot n { x with br := brt5 a }).pix, s.seq, [.ok], fun u hp hq => ?_⟩
        simp only [State.slot_congr hp n, hn]
        exact State.hasEffect_writeSlot n _ hp hq
  | xmit =>
    simp only [exec, execXmit]
    cases hf : s.firstInvalid with
    | none =>
      refine ⟨s.pix, .sending SeqPos.start, [], fun u hp _ => ?_⟩
      simp only [State.firstInvalid_congr hp, hf]
      exact ⟨_, rfl, hp, rfl, by simp, by simp⟩
    | some n =>
      refine ⟨s.pix, s.seq, [.fault (.pixelNotInitialized n)], fun u hp hq => ?_⟩
      simp only [State.firstInvalid_congr hp, hf]
      exact State.hasEffect_raise _ hp hq
  | wireStart | wirePixel | wireEnd => cases hi

/-- A wire frame in hand is one port write, of a byte that is the same in every state at the position. -/
theorem exec_frame_eq_sendWrite {s : State} {p : SeqPos} {i : Instr} (h : s.frameInHand p = some i) :
    ∃ v, ∀ u : State, u.seq = .sending p → exec i u = sendWrite p v u := by
  have hsend {byteAt : Nat → Option Byte} {v : Byte} (hv : byteAt p.k = some v) (u : State) (hu : u.seq = .sending p) :
      sendFrame byteAt u = sendWrite p v u := by
    simp only [sendFrame, hu, hv]
  unfold State.frameInHand at h
  split_ifs at h with h1 h2
  · cases h
    exact ⟨_, hsend (if_pos h1)⟩
  · cases hx : s.slot (pixelOfByte p.k) with
    | none => simp [hx] at h
    | some x =>
      simp only [hx, Option.some.injEq] at h
      subst h
      exact ⟨_, hsend (if_pos ⟨Nat.le_of_not_lt h1, h2⟩)⟩
  · cases h
    exact ⟨_, hsend (if_pos (Nat.le_of_not_lt h2))⟩

/-- The effect of a port write that is done: its event, and the response with the last one. -/
theorem sendWrite_hasEffect (p : SeqPos) (v : Byte) (s : State) :
    ∃ seq rs, ∀ u : State, u.pix = s.pix → u.portAnswer = .done →
      u.HasEffect (sendWrite p v u) s.pix seq [p.write v] rs := by
  cases hn : p.next with
  | none =>
    refine ⟨.idle, [.ok], fun u hp ha => ?_⟩
    simp only [sendWrite, ha, State.advance, hn]
    exact ⟨_, rfl, by simpa using hp, rfl, by simp, by simp⟩
  | some q =>
    refine ⟨.sending q, [], fun u hp ha => ?_⟩
    simp only [sendWrite, ha, State.advance, hn]
    exact ⟨_, rfl, by simpa using hp, rfl, by simp, by simp⟩

theorem State.SameInputs.resetNow {s u : State} (h : s.SameInputs u) : u.resetNow = s.resetNow := by
  simp [State.resetNow, h.resetLine]

theorem State.SameInputs.portAnswer {s u : State} (h : s.SameInputs u) : u.portAnswer = s.portAnswer := by
  simp [State.portAnswer, h.port]

/-- The effect of a step that is no reset, and whose write, if it makes one, is done, is settled by what the step reads. -/
theorem step_hasEffect {s t : State} (h : step s = .next t) (ha : s.portAnswer = .done) (hr : s.resetNow = false) :
    ∃ pix seq es rs, ∀ u : State, s.SameInputs u → u.HasEffect (step u) pix seq es rs := by
  rcases step_cases s t h with ⟨hr', -⟩ | ⟨-, hk, -⟩ | ⟨-, hk, hq, hc, -⟩ | ⟨-, hk, hq, w, rest, o, hc, hd, -⟩ |
    ⟨-, hk, hq, w, rest, i, hc, hd, -⟩ | ⟨-, hk, p, i, v, hq, hf, -, -⟩
  · cases hr.symm.trans hr'
  · refine ⟨s.pix, s.seq, [], [], fun u hu => ?_⟩
    rw [step_of_stuck u (hu.resetNow.trans hr) (hu.portStuck.trans hk)]
    exact State.hasEffect_sampleReset hu.pix hu.seq
  · refine ⟨s.pix, s.seq, [], [], fun u hu => ?_⟩
    rw [step_of_waiting u (hu.resetNow.trans hr) (hu.portStuck.trans hk) (hu.seq.trans hq) (hu.cmds.trans hc)]
    exact State.hasEffect_sampleReset hu.pix hu.seq
  · refine ⟨s.pix, s.seq, [], [.fault (.illegalCommand o)], fun u hu => ?_⟩
    rw [step_of_illegal u w rest o (hu.resetNow.trans hr) (hu.portStuck.trans hk) (hu.seq.trans hq) (hu.cmds.trans hc) hd]
    exact State.hasEffect_raise (u := u.sampleReset.consume rest) _ hu.pix hu.seq
  · obtain ⟨pix, seq, rs, heff⟩ := exec_command_hasEffect i s (isCommand_of_decode hd)
    refine ⟨pix, seq, [], rs, fun u hu => ?_⟩
    rw [step_of_command u w rest i (hu.resetNow.trans hr) (hu.portStuck.trans hk) (hu.seq.trans hq) (hu.cmds.trans hc) hd]
    exact heff (u.sampleReset.consume rest) hu.pix hu.seq
  · obtain ⟨v, hv⟩ := exec_frame_eq_sendWrite hf
    obtain ⟨seq, rs, heff⟩ := sendWrite_hasEffect p v s
    refine ⟨s.pix, seq, [p.write v], rs, fun u hu => ?_⟩
    have hq' : u.seq = .sending p := hu.seq.trans hq
    have hf' : u.sampleReset.frameInHand p = some i := (State.frameInHand_congr (s := s.sampleReset) hu.pix p).trans hf
    rw [step_of_frame u p i (hu.resetNow.trans hr) (hu.portStuck.trans hk) hq' hf', hv u.sampleReset hq']
    exact heff u.sampleReset hu.pix (hu.portAnswer.trans ha)

/-- Settles O56: the two states agree in all that a step reads, so the step has one effect in both. -/
theorem eventsIgnoreTheLinesAndTheRecord : Obligations.EventsIgnoreTheLinesAndTheRecord := by
  intro s clk dat trace earlier responses accepted t h ha hr
  obtain ⟨pix, seq, es, rs, heff⟩ := step_hasEffect h ha hr
  obtain ⟨t', ht', hpix, hseq, htrace, hresp⟩ := heff s ⟨rfl, rfl, rfl, rfl, rfl, rfl⟩
  obtain rfl : t = t' := by rw [h] at ht'; cases ht'; rfl
  obtain ⟨u, hu, hpix', hseq', htrace', hresp'⟩ := heff { s with
    clk := clk, dat := dat, trace := trace, earlier := earlier, responses := responses, accepted := accepted }
    ⟨rfl, rfl, rfl, rfl, rfl, rfl⟩
  exact ⟨u, hu, hpix'.trans hpix.symm, hseq'.trans hseq.symm, ⟨es, htrace, htrace'⟩, rs, hresp, hresp'⟩

end Sys2Proof.Machine

namespace Sys2Proof.Machine

/-! ## The order of the sequencer (spec/10_state.md R28) -/

/-- The position after `p` is the one whose number is one more: numbers are distinct, so there is no other. -/
theorem SeqPos.next_eq_some_iff (p q : SeqPos) : p.next = some q ↔ q.number = p.number + 1 := by
  rcases p.next_cases with ⟨r, hr, hnum⟩ | ⟨hnone, hlast⟩
  · rw [hr, Option.some.injEq]
    exact ⟨fun h => h ▸ hnum, fun h => SeqPos.number_inj (hnum.trans h.symm)⟩
  · have hle := q.number_le
    exact ⟨fun h => by simp [hnone] at h, fun h => by omega⟩

/-- Only the last write has no position after it. -/
theorem SeqPos.next_eq_none_iff (p : SeqPos) : p.next = none ↔ p.number = 887 := by
  refine ⟨fun h => ?_, p.next_of_eq⟩
  rcases p.next_cases with ⟨q, hq, -⟩ | ⟨-, hlast⟩
  · simp [h] at hq
  · exact hlast

/-- Settles O41: `next` counts one write on, and a number names one position. -/
theorem sequencerCountsTheWrites : Obligations.SequencerCountsTheWrites :=
  ⟨rfl, SeqPos.number_le, SeqPos.next_eq_some_iff, SeqPos.next_eq_none_iff, fun _ _ => SeqPos.number_inj⟩

/-! ## The valid bits (spec/10_state.md R21, R24) -/

theorem State.valid_congr {s t : State} (h : t.pix = s.pix) (n : Fin Config.numPixels) : t.valid n = s.valid n := by
  simp [State.valid, State.slot_congr h]

/-- A command empties no slot. -/
theorem exec_command_keeps_valid {i : Instr} {s t : State} {n : Fin Config.numPixels} (hi : i.isCommand = true)
    (h : exec i s = .next t) (hv : s.valid n = true) : t.valid n = true := by
  obtain ⟨u, hu, -, -, -, -, -, -, -, -, -, hkeep, -⟩ := exec_command_next i s hi
  rw [h] at hu
  cases hu
  exact hkeep n hv

/-- A port write leaves the store. -/
theorem sendWrite_pix {p : SeqPos} {v : Byte} {s t : State} (h : sendWrite p v s = .next t) : t.pix = s.pix := by
  obtain ⟨u, hu, hpix, -⟩ := sendWrite_next p v s
  rw [h] at hu
  cases hu
  exact hpix

/-- Settles O52: of what a step can be, only a command writes the store, and it writes pixels. -/
theorem validUntilReset : Obligations.ValidUntilReset := by
  intro s t n hr h hv
  rcases step_cases s t h with ⟨hr', -⟩ | ⟨-, -, rfl⟩ | ⟨-, -, -, -, rfl⟩ | ⟨-, -, -, w, rest, o, -, -, rfl⟩ |
    ⟨-, -, -, w, rest, i, -, hd, hx⟩ | ⟨-, -, p, i, v, -, -, -, hw⟩
  · cases hr.symm.trans hr'
  · exact hv
  · exact hv
  · exact hv
  · exact exec_command_keeps_valid (s := s.sampleReset.consume rest) (isCommand_of_decode hd) hx hv
  · rwa [State.valid_congr (sendWrite_pix hw)]

/-! ## The state after reset (spec/10_state.md R34) -/

/-- No slot is valid after reset. -/
@[simp] theorem State.valid_reset (n : Fin Config.numPixels) : State.reset.valid n = false := by
  simp [State.valid]

/-- Nothing is presented after reset, so the block waits; there is no sample of the reset line to use up. -/
theorem step_reset : step State.reset = .next State.reset :=
  step_of_waiting State.reset rfl rfl rfl rfl

/-- Settles O1: the slots are empty, the other pieces are as the reset state names them, and the block waits. -/
theorem resetValues : Obligations.ResetValues :=
  ⟨fun n => ⟨State.valid_reset n, State.slot_reset n⟩, rfl, rfl, rfl, rfl, rfl, step_reset⟩

/-! ## The invariant (spec/10_state.md R28) -/

/-- Idle, the invariant says only that no port write is pending. -/
theorem State.inv_iff_of_idle {s : State} (h : s.seq = .idle) : s.Inv ↔ s.portStuck = false := by
  simp [State.Inv, h]

/-- Settles O50: the block is idle after reset and its port is not stuck. -/
theorem resetHasTheInvariant : Obligations.ResetHasTheInvariant :=
  (State.inv_iff_of_idle rfl).mpr rfl

end Sys2Proof.Machine

namespace Sys2Proof.Machine

/-! ## Commands run a second time (spec/20_memory.md R58) -/

/-- The outcome `o` of a command is a next state with the store and the last response of `t`. -/
def State.RepeatedBy (t : State) (o : Host.Outcome State Fault Refusal) : Prop :=
  ∃ u, o = .next u ∧ u.pix = t.pix ∧ u.responses.getLast? = t.responses.getLast?

/-- A command that leaves the same store and gives the same response as the one before repeats it. -/
theorem State.repeatedBy_respond {s u : State} (r : Response) (h : u.pix = s.pix) :
    (s.respond r).RepeatedBy (.next (u.respond r)) :=
  ⟨_, rfl, h, by simp⟩

/-- A fault leaves the store, so the same fault again repeats it. -/
theorem State.repeatedBy_raise (s : State) (f : Fault) :
    (s.respond (.fault f)).RepeatedBy (raise f (s.respond (.fault f))) :=
  State.repeatedBy_respond _ rfl

/-- A write of the same pixel to the same slot again. -/
theorem State.repeatedBy_writeSlot (s : State) (n : Fin Config.numPixels) (x : Pixel) :
    ((s.writeSlot n x).respond .ok).RepeatedBy (complete (((s.writeSlot n x).respond .ok).writeSlot n x)) :=
  State.repeatedBy_respond _ (by simp)

/-- A write of every slot again, by a function that keeps its own results (spec/40_pixel_store_ops.md R113). -/
theorem State.repeatedBy_writeAll (s : State) {f : Option Pixel → Pixel} (hf : ∀ x, f (some (f x)) = f x) :
    ((s.writeAll f).respond .ok).RepeatedBy (complete (((s.writeAll f).respond .ok).writeAll f)) :=
  State.repeatedBy_respond _ (pix_ext fun n => by simp [hf])

/-- SETPIX keeps the brightness that it has itself kept or set (spec/40_pixel_store_ops.md R105). -/
@[simp] theorem recolour_recolour (r g b : Rat) (x : Option Pixel) :
    recolour r g b (some (recolour r g b x)) = recolour r g b x :=
  rfl

/-- A pixel store command, and the same command again: whether it faults depends on the index and on whether a slot is valid,
and both are after it what they were; what it writes is fixed by its numbers and by a brightness that it keeps. -/
theorem exec_store_repeatedBy (i : Instr) (s : State) (hi : i.isStoreCommand = true) :
    ∃ t, exec i s = .next t ∧ t.RepeatedBy (exec i t) := by
  cases i with
  | init | setall | setalla | clear => exact ⟨_, rfl, State.repeatedBy_writeAll s fun _ => rfl⟩
  | setpix i r g b =>
    simp only [exec, execSetpix]
    cases slotIndex i with
    | none => exact ⟨_, rfl, s.repeatedBy_raise _⟩
    | some n =>
      refine ⟨(s.writeSlot n (recolour r g b (s.slot n))).respond .ok, rfl, ?_⟩
      simpa using s.repeatedBy_writeSlot n (recolour r g b (s.slot n))
  | setpixa i r g b a =>
    simp only [exec, execSetpixa]
    cases slotIndex i with
    | none => exact ⟨_, rfl, s.repeatedBy_raise _⟩
    | some n => exact ⟨_, rfl, s.repeatedBy_writeSlot n _⟩
  | setbrt i a =>
    simp only [exec, execSetbrt]
    cases slotIndex i with
    | none => exact ⟨_, rfl, s.repeatedBy_raise _⟩
    | some n =>
      dsimp only
      cases hn : s.slot n with
      | none =>
        refine ⟨s.respond (.fault (.pixelNotInitialized n)), rfl, ?_⟩
        simpa [hn] using s.repeatedBy_raise (.pixelNotInitialized n)
      | some x =>
        refine ⟨(s.writeSlot n { x with br := brt5 a }).respond .ok, rfl, ?_⟩
        simpa using s.repeatedBy_writeSlot n { x with br := brt5 a }
  | xmit | wireStart | wirePixel | wireEnd => cases hi

/-- Settles O33: the first run is the one that is repeated. -/
theorem storeCommandsAreIdempotent : Obligations.StoreCommandsAreIdempotent := by
  intro i s t hi h
  obtain ⟨t', ht, hrep⟩ := exec_store_repeatedBy i s hi
  rw [h] at ht
  cases ht
  exact hrep

/-! ## The store while a transmit runs (spec/20_memory.md R57, spec/41_transmit.md R134) -/

/-- A busy block is not idle (spec/10_state.md R29). -/
theorem State.seq_ne_idle_of_busy {s : State} (h : s.busy = true) : s.seq ≠ .idle := by
  intro hq
  simp [State.busy, hq] at h

/-- Settles O53: a busy step that is no reset is a port write, or it waits for one that does not return. -/
theorem storeIsConstantWhileBusy : Obligations.StoreIsConstantWhileBusy := by
  intro s t hr hb h
  have hbusy := State.seq_ne_idle_of_busy hb
  rcases step_cases s t h with ⟨hr', -⟩ | ⟨-, -, rfl⟩ | ⟨-, -, hq, -⟩ | ⟨-, -, hq, -⟩ | ⟨-, -, hq, -⟩ |
    ⟨-, -, p, i, v, -, -, -, hw⟩
  · cases hr.symm.trans hr'
  · rfl
  · exact absurd hq hbusy
  · exact absurd hq hbusy
  · exact absurd hq hbusy
  · exact sendWrite_pix (s := s.sampleReset) hw

end Sys2Proof.Machine

namespace Sys2Proof

/-! ## Decoding what was encoded (spec/30_encoding.md R80, R82, R86) -/

section DecodePack
variable (idx : Byte) (r g b a : Field)

@[simp] theorem decode_pack_init : decode (packCommand 0x01#8 idx r g b a) = .op .init := by simp [decode]

@[simp] theorem decode_pack_setpix : decode (packCommand 0x02#8 idx r g b a) =
    .op (.setpix (indexValue idx) (fieldValue r) (fieldValue g) (fieldValue b)) := by simp [decode]

@[simp] theorem decode_pack_setpixa : decode (packCommand 0x03#8 idx r g b a) =
    .op (.setpixa (indexValue idx) (fieldValue r) (fieldValue g) (fieldValue b) (fieldValue a)) := by simp [decode]

@[simp] theorem decode_pack_setall : decode (packCommand 0x04#8 idx r g b a) =
    .op (.setall (fieldValue r) (fieldValue g) (fieldValue b)) := by simp [decode]

@[simp] theorem decode_pack_setalla : decode (packCommand 0x05#8 idx r g b a) =
    .op (.setalla (fieldValue r) (fieldValue g) (fieldValue b) (fieldValue a)) := by simp [decode]

@[simp] theorem decode_pack_setbrt : decode (packCommand 0x06#8 idx r g b a) =
    .op (.setbrt (indexValue idx) (fieldValue a)) := by simp [decode]

@[simp] theorem decode_pack_clear : decode (packCommand 0x07#8 idx r g b a) = .op .clear := by simp [decode]

@[simp] theorem decode_pack_xmit : decode (packCommand 0x08#8 idx r g b a) = .op .xmit := by simp [decode]

end DecodePack

/-- The row with its index and its numbers replaced, operand by operand. -/
def Instr.mapOperands (onIndex : Int → Int) (onNumber : Rat → Rat) : Instr → Instr
  | .setpix i r g b => .setpix (onIndex i) (onNumber r) (onNumber g) (onNumber b)
  | .setpixa i r g b a => .setpixa (onIndex i) (onNumber r) (onNumber g) (onNumber b) (onNumber a)
  | .setall r g b => .setall (onNumber r) (onNumber g) (onNumber b)
  | .setalla r g b a => .setalla (onNumber r) (onNumber g) (onNumber b) (onNumber a)
  | .setbrt i a => .setbrt (onIndex i) (onNumber a)
  | .init => .init
  | .clear => .clear
  | .xmit => .xmit
  | .wireStart => .wireStart
  | .wirePixel br b g r => .wirePixel br b g r
  | .wireEnd => .wireEnd

section MapOperands
variable (onIndex : Int → Int) (onNumber : Rat → Rat) (i : Instr)

@[simp] theorem Instr.mnemonic_mapOperands : (i.mapOperands onIndex onNumber).mnemonic = i.mnemonic := by
  cases i <;> rfl

@[simp] theorem Instr.indices_mapOperands : (i.mapOperands onIndex onNumber).indices = i.indices.map onIndex := by
  cases i <;> rfl

@[simp] theorem Instr.numbers_mapOperands : (i.mapOperands onIndex onNumber).numbers = i.numbers.map onNumber := by
  cases i <;> rfl

end MapOperands

theorem Instr.mapOperands_eq_self {onIndex : Int → Int} {onNumber : Rat → Rat} {i : Instr}
    (hi : ∀ n ∈ i.indices, onIndex n = n) (hv : ∀ v ∈ i.numbers, onNumber v = v) :
    i.mapOperands onIndex onNumber = i := by
  cases i <;> simp_all [Instr.mapOperands, Instr.indices, Instr.numbers]

/-- What the fields of a row's encoding stand for: the index modulo 256, the numbers rounded and wrapped to the field. -/
def Instr.asEncoded : Instr → Instr :=
  Instr.mapOperands (fun n => indexValue (BitVec.ofInt 8 n)) fun v => fieldValue (fieldOf v)

/-- Any row, well-formed or not, is read back with its operands as the fields hold them. -/
theorem decodeEncoded_encode (i : Instr) : decodeEncoded (encode i) = some i.asEncoded := by
  cases i with
  | init | setpix | setpixa | setall | setalla | setbrt | clear | xmit =>
    simp [encode, decodeEncoded, Decoded.toOption, Instr.asEncoded, Instr.mapOperands]
  | wireStart | wireEnd => rfl
  | wirePixel br b g r => exact decodeWire32_pixelWord br b g r

/-- Settles O10: the fields hold the operands of a well-formed row exactly. -/
theorem decodeOfEncode : Obligations.DecodeOfEncode := by
  intro i h
  simp only [Instr.wellFormed, Bool.and_eq_true, List.all_eq_true] at h
  obtain ⟨hindex, hnumber⟩ := h
  have hself : i.asEncoded = i := Instr.mapOperands_eq_self
    (fun n hn => indexValue_ofInt n (hindex n hn)) (fun v hv => fieldValue_of_fits v (hnumber v hv))
  rw [decodeEncoded_encode, hself]

/-- A word is packed from given fields exactly when its fields are these. -/
theorem pack_eq_iff {op idx : Byte} {r g b a : Field} {w : CmdWord} : packCommand op idx r g b a = w ↔
    opField w = op ∧ idxField w = idx ∧ redField w = r ∧ greenField w = g ∧ blueField w = b ∧ brightField w = a := by
  rw [eq_comm, ← pack_fields w, pack_inj]
  simp

/-- Settles O11: the fields an operation uses are encoded as they were, so the words agree when the others are zero. -/
theorem encodeOfDecode : Obligations.EncodeOfDecode := by
  intro w i h
  rcases decode_cases w with ⟨hop, hd⟩ | ⟨hop, hd⟩ | ⟨hop, hd⟩ | ⟨hop, hd⟩ | ⟨hop, hd⟩ | ⟨hop, hd⟩ | ⟨hop, hd⟩ |
    ⟨hop, hd⟩ | ⟨-, hd⟩ <;> rw [hd] at h <;> cases h <;>
  simp [encode, pack_eq_iff, fieldOf_fieldValue, unusedFieldsZero, hop, and_assoc]

/-- Settles O12: of the nine things a word can decode to, one is Illegal, and the opcodes of the others are not reserved. -/
theorem illegalExactlyOnReserved : Obligations.IllegalExactlyOnReserved := by
  intro w o
  rcases decode_cases w with ⟨hop, hd⟩ | ⟨hop, hd⟩ | ⟨hop, hd⟩ | ⟨hop, hd⟩ | ⟨hop, hd⟩ | ⟨hop, hd⟩ | ⟨hop, hd⟩ |
    ⟨hop, hd⟩ | ⟨hreserved, hd⟩
  rotate_right
  · rw [hd, Decoded.illegal.injEq]
    exact ⟨fun h => ⟨h.symm, hreserved⟩, fun h => h.1.symm⟩
  all_goals simp [hd, hop]

/-- Settles O13: each word is decoded by its opcode, from the fields that the opcode uses. -/
theorem unusedFieldsAreIgnored : Obligations.UnusedFieldsAreIgnored := by
  intro op idx idx' r g b a r' g' b' a'
  refine ⟨?_, by simp, by simp, by simp, by simp⟩
  rintro (rfl | rfl | rfl) <;> simp

/-- What the decoder gives has an index 0 to 255 and numbers that fit their fields (spec/30_encoding.md R78, R79). -/
theorem wellFormed_of_decode {w : CmdWord} {i : Instr} (h : decode w = .op i) : i.wellFormed = true := by
  rcases decode_cases w with ⟨-, hd⟩ | ⟨-, hd⟩ | ⟨-, hd⟩ | ⟨-, hd⟩ | ⟨-, hd⟩ | ⟨-, hd⟩ | ⟨-, hd⟩ | ⟨-, hd⟩ | ⟨-, hd⟩ <;>
    rw [hd] at h <;> cases h <;>
    simp [Instr.wellFormed, Instr.indices, Instr.numbers, indexFits_indexValue, numberFits_fieldValue]

/-- Settles O14: the fields hold nothing else, and no opcode decodes to a wire frame. -/
theorem decodedIsWellFormed : Obligations.DecodedIsWellFormed :=
  fun _ _ h => ⟨wellFormed_of_decode h, Machine.isCommand_of_decode h⟩

/-- Settles O15: zeros are the start frame, a header of ones makes a pixel frame of the other bits, and neither row has
another encoding. -/
theorem wireWordsReadBack : Obligations.WireWordsReadBack := by
  intro w i
  constructor
  · intro h
    unfold decodeWire32 at h
    split_ifs at h with h0 hheader
    · cases h
      exact ⟨.inl rfl, by rw [h0]; rfl⟩
    · cases h
      exact ⟨.inr ⟨_, _, _, _, rfl⟩, congrArg Encoded.wire32 (pixelWord_fields w hheader)⟩
  · rintro ⟨rfl | ⟨br, b, g, r, rfl⟩, he⟩ <;> cases he
    · rfl
    · exact decodeWire32_pixelWord br b g r

/-! ## The numbers of a field (spec/30_encoding.md R78, R87) -/

/-- Settles O17: the bounds are those of a signed 32-bit field, divided by 65536. -/
theorem fieldValueIsFixedPoint : Obligations.FieldValueIsFixedPoint := by
  intro f
  have hlow : (-2147483648 : Rat) ≤ f.toInt := by exact_mod_cast BitVec.le_toInt f
  have hhigh : (f.toInt : Rat) ≤ 2147483647 := by exact_mod_cast Int.le_of_lt_add_one (BitVec.toInt_lt (x := f))
  rw [Machine.fieldValue_eq_div]
  exact ⟨rfl, by linarith, by linarith⟩

/-- A number in range is off by half a unit of the field at most. -/
theorem fieldValue_fieldOf_near {v : Rat} (hlow : -2147483648 ≤ fieldUnits v) (hhigh : fieldUnits v < 2147483648) :
    |fieldValue (fieldOf v) - v| ≤ 1 / 131072 := by
  have hnear := fieldUnits_near v
  rw [fieldValue_fieldOf v hlow hhigh]
  rw [abs_le] at hnear ⊢
  obtain ⟨h1, h2⟩ := hnear
  exact ⟨by linarith, by linarith⟩

/-- Settles O21: the units are rounded to the nearest, and a number of whole units is not rounded. -/
theorem fieldRounding : Obligations.FieldRounding := by
  intro v hlow hhigh
  refine ⟨fieldValue_fieldOf_near hlow hhigh, fun n hn => ?_⟩
  rw [fieldValue_fieldOf v hlow hhigh, fieldUnits_exact v n hn, ← hn]
  ring

/-! ## The assembler (spec/30_encoding.md R84, R86, R87) -/

/-- The assembler gives a word only for a row whose operands are in range, and the word is the row's encoding. -/
theorem assembleOperation_eq_some {i : Instr} {w : CmdWord} (h : Machine.assembleOperation i = some w) :
    (∀ n ∈ i.indices, indexFits n = true) ∧ (∀ v ∈ i.numbers, Machine.unitsFit v = true) ∧ encode i = .command w := by
  unfold Machine.assembleOperation at h
  split_ifs at h with hfit
  simp only [Bool.and_eq_true, List.all_eq_true] at hfit
  obtain ⟨hindex, hunits⟩ := hfit
  refine ⟨hindex, hunits, ?_⟩
  cases he : encode i with
  | command w' => simpa [he] using h
  | wire32 _ | wire8 _ => simp [he] at h

/-- A command word that encodes a row decodes to it with its operands as the fields hold them. -/
theorem decode_of_encode_eq {i : Instr} {w : CmdWord} (h : encode i = .command w) : decode w = .op i.asEncoded := by
  have hd := decodeEncoded_encode i
  rw [h] at hd
  cases hw : decode w with
  | op j => simpa [decodeEncoded, hw, Decoded.toOption] using hd
  | illegal o => simp [decodeEncoded, hw, Decoded.toOption] at hd

/-- Settles O23: the row is read back with its operands as the fields hold them: the index as it was, each number rounded. -/
theorem assembledWordDecodes : Obligations.AssembledWordDecodes := by
  intro i w h
  obtain ⟨hindex, hunits, he⟩ := assembleOperation_eq_some h
  refine ⟨i.asEncoded, decode_of_encode_eq he, Instr.mnemonic_mapOperands .., ?_, ?_⟩
  · rw [Instr.asEncoded, Instr.indices_mapOperands]
    exact (List.map_congr_left fun n hn => indexValue_ofInt n (hindex n hn)).trans (List.map_id _)
  · rw [Instr.asEncoded, Instr.numbers_mapOperands, List.forall₂_map_left_iff, List.forall₂_same]
    intro v hv
    obtain ⟨hlow, hhigh⟩ := of_decide_eq_true (hunits v hv)
    exact fieldValue_fieldOf_near hlow hhigh

/-- Settles O9, by evaluation. -/
theorem sampleWordsDecode : Obligations.SampleWordsDecode := by
  unfold Obligations.SampleWordsDecode
  decide

/-- Settles O22, by evaluation. -/
theorem sampleLinesAssemble : Obligations.SampleLinesAssemble := by
  unfold Obligations.SampleLinesAssemble
  decide

end Sys2Proof

namespace Sys2Proof.Machine

/-! ## Commands on all slots as commands on each (spec/30_encoding.md R85) -/

/-- The writes of the slots below `k`, one command each: those slots hold what the write makes of their own content, and the
others are untouched. -/
theorem execAll_writeSlot_range {op : Nat → Instr} {f : Option Pixel → Pixel}
    (hop : ∀ (n : Fin Config.numPixels) (u : State), exec (op n) u = complete (u.writeSlot n (f (u.slot n))))
    (s : State) (k : Nat) (hk : k ≤ Config.numPixels) : ∃ u, execAll ((List.range k).map op) s = some u ∧
      ∀ m : Fin Config.numPixels, u.slot m = if m.val < k then some (f (s.slot m)) else s.slot m := by
  induction k with
  | zero => exact ⟨s, rfl, fun m => by simp⟩
  | succ k ih =>
    obtain ⟨u, hu, hslot⟩ := ih (Nat.le_of_succ_le hk)
    refine ⟨_, by rw [List.range_succ, List.map_append]; exact execAll_append _ _ _ _ _ hu (hop ⟨k, hk⟩ u), fun m => ?_⟩
    rw [State.slot_respond]
    by_cases hm : m = ⟨k, hk⟩
    · subst hm
      simp [hslot]
    · have hne : m.val ≠ k := fun h => hm (Fin.ext h)
      rw [State.slot_writeSlot_ne _ _ _ _ hm, hslot]
      simp only [Nat.lt_succ_iff_lt_or_eq, hne, or_false]

/-- A write of all slots leaves the store that the writes of each slot leave, one command after the other. -/
theorem writeAll_eq_execAll {op : Nat → Instr} {f : Option Pixel → Pixel}
    (hop : ∀ (n : Fin Config.numPixels) (u : State), exec (op n) u = complete (u.writeSlot n (f (u.slot n))))
    (s : State) : ∃ t u, complete (s.writeAll f) = .next t ∧
      execAll ((List.range Config.numPixels).map op) s = some u ∧ t.pix = u.pix := by
  obtain ⟨u, hu, hslot⟩ := execAll_writeSlot_range hop s _ le_rfl
  exact ⟨_, u, rfl, hu, pix_ext fun m => by simp [hslot, m.isLt]⟩

/-- SETPIX on an index in range (spec/40_pixel_store_ops.md R105). -/
theorem exec_setpix_val (n : Fin Config.numPixels) (r g b : Rat) (s : State) :
    exec (.setpix n.val r g b) s = complete (s.writeSlot n (recolour r g b (s.slot n))) := by
  simp [exec, execSetpix]

/-- SETPIXA on an index in range (spec/40_pixel_store_ops.md R106). -/
theorem exec_setpixa_val (n : Fin Config.numPixels) (r g b a : Rat) (s : State) :
    exec (.setpixa n.val r g b a) s = complete (s.writeSlot n (repaint r g b a)) := by
  simp [exec, execSetpixa]

/-- 255 is a colour as it stands, so SETALL 255, 255, 255 writes the white of CLEAR. -/
theorem recolour_white : recolour 255 255 255 = fun old =>
    { r := Config.colourDefault, g := Config.colourDefault, b := Config.colourDefault, br := keptBrightness old } := by
  have hwhite : col8 255 = Config.colourDefault := by decide
  funext old
  simp only [recolour, hwhite]

/-- Settles O32: CLEAR and SETALL write the same pixels, and the expansions write slot after slot what SETALL and SETALLA write
at once. -/
theorem multiSlotCommandsAreExpansions : Obligations.MultiSlotCommandsAreExpansions := by
  refine ⟨fun s => ?_, fun s r g b => ?_, fun s r g b a => ?_⟩
  · simp only [exec, execClear, execSetall, recolour_white]
  · exact writeAll_eq_execAll (op := fun n => .setpix n r g b) (fun n u => exec_setpix_val n r g b u) s
  · exact writeAll_eq_execAll (op := fun n => .setpixa n r g b a) (f := fun _ => repaint r g b a)
      (fun n u => exec_setpixa_val n r g b a u) s

/-! ## The bytes of the frame (spec/30_encoding.md R71 to R74) -/

/-- The frame's byte in bytes 0 to 3. -/
theorem frameByte_start (px : Fin Config.numPixels → Pixel) {k : Nat} (hk : k ≤ 3) : frameByte px k = Config.startByte :=
  if_pos (Nat.lt_succ_of_le hk)

/-- Byte `f` of pixel `n` is in the pixel frames, and is byte `f` of its own. -/
theorem pixelByte_position (n : Fin Config.numPixels) (f : Fin 4) :
    Config.startBytes ≤ 4 + 4 * n.val + f.val ∧
    4 + 4 * n.val + f.val < Config.startBytes + Config.bytesPerPixel * Config.numPixels ∧
    (4 + 4 * n.val + f.val - Config.startBytes) % Config.bytesPerPixel = f.val := by
  have hn : n.val < 8 := n.isLt
  have hf := f.isLt
  change 4 ≤ 4 + 4 * n.val + f.val ∧ 4 + 4 * n.val + f.val < 36 ∧ (4 + 4 * n.val + f.val - 4) % 4 = f.val
  omega

/-- The frame's byte in the bytes of pixel `n`. -/
theorem frameByte_pixel (px : Fin Config.numPixels → Pixel) (n : Fin Config.numPixels) (f : Fin 4) :
    frameByte px (4 + 4 * n.val + f.val) = (px n).wireByte f.val := by
  obtain ⟨hlow, hhigh, hbyte⟩ := pixelByte_position n f
  rw [frameByte, if_neg (Nat.not_lt_of_le hlow), if_pos hhigh, pixelOfByte_eq, hbyte]

theorem getElem?_frameBytesOf (px : Fin Config.numPixels → Pixel) {k : Nat} (hk : k < 37) :
    (frameBytesOf px)[k]? = some (frameByte px k) := by
  have hframe : k < Config.frameBytes := hk
  simp [frameBytesOf, hframe]

/-- The bytes of pixel `n` in the frame. -/
theorem getElem?_frameBytesOf_pixel (px : Fin Config.numPixels → Pixel) (n : Fin Config.numPixels) (f : Fin 4) :
    (frameBytesOf px)[4 + 4 * n.val + f.val]? = some ((px n).wireByte f.val) := by
  have hn : n.val < 8 := n.isLt
  rw [getElem?_frameBytesOf px (by omega), frameByte_pixel]

/-- Settles O44: the bytes of the list are those of `frameByte`, frame by frame. -/
theorem frameLayout : Obligations.FrameLayout := by
  intro px
  refine ⟨(List.length_map _).trans List.length_range, fun k hk => ?_, fun n => ⟨?_, ?_, ?_, ?_⟩, getElem?_frameBytesOf px (by decide)⟩
  · rw [getElem?_frameBytesOf px (by omega), frameByte_start px hk]
    rfl
  · exact getElem?_frameBytesOf_pixel px n 0
  · exact getElem?_frameBytesOf_pixel px n 1
  · exact getElem?_frameBytesOf_pixel px n 2
  · exact getElem?_frameBytesOf_pixel px n 3

/-- The header byte of a pixel is 111 and its brightness. -/
theorem header_eq_append (br : Bright) : Config.pixelHeader ||| br.setWidth 8 = (7#3 ++ br : BitVec 8) := by
  revert br
  decide

/-- The header byte is 0xE0 and its brightness, added. -/
theorem header_toNat (br : Bright) : (Config.pixelHeader ||| br.setWidth 8).toNat = 0xE0 + br.toNat := by
  rw [header_eq_append, BitVec.toNat_append]
  exact (Nat.shiftLeft_add_eq_or_of_lt br.isLt 7).symm

/-- Settles O45: the first byte is the header with the brightness, the others are the colours as they stand. -/
theorem pixelFramePattern : Obligations.PixelFramePattern := by
  intro p
  refine ⟨rfl, ?_, rfl, header_toNat p.br, rfl, rfl, rfl⟩
  change (7#3 ++ p.br : BitVec 8) ++ p.b ++ p.g ++ p.r = (Config.pixelHeader ||| p.br.setWidth 8) ++ p.b ++ p.g ++ p.r
  rw [header_eq_append]

/-! ## A write of a wire frame (spec/41_transmit.md R136, R138) -/

/-- In the start frame, WIRE.START is the next write of a zero byte (spec/30_encoding.md R72). -/
theorem exec_wireStart {s : State} {p : SeqPos} (hs : s.seq = .sending p) (hk : p.k.val ≤ 3) :
    exec .wireStart s = sendWrite p Config.startByte s := by
  have hbyte : startFrameByte p.k = some Config.startByte := if_pos (Nat.lt_succ_of_le hk)
  simp only [exec, execWireStart, sendFrame, hs, hbyte]

/-- In byte `f` of a pixel frame, WIRE.PIXEL is the next write of that byte (spec/30_encoding.md R73). -/
theorem exec_wirePixel {s : State} {p : SeqPos} {n : Fin Config.numPixels} {f : Fin 4} (hs : s.seq = .sending p)
    (hk : p.k.val = 4 + 4 * n.val + f.val) (br : Bright) (b g r : Byte) :
    exec (.wirePixel br b g r) s = sendWrite p (Pixel.wireByte ⟨r, g, b, br⟩ f.val) s := by
  obtain ⟨hlow, hhigh, hbyte⟩ := pixelByte_position n f
  have hframe : pixelFrameByte ⟨r, g, b, br⟩ p.k = some (Pixel.wireByte ⟨r, g, b, br⟩ f.val) := by
    rw [pixelFrameByte, hk, if_pos ⟨hlow, hhigh⟩, hbyte]
  simp only [exec, execWirePixel, sendFrame, hs, hframe]

/-- In the end frame, WIRE.END is the next write of a byte of ones (spec/30_encoding.md R74). -/
theorem exec_wireEnd {s : State} {p : SeqPos} (hs : s.seq = .sending p) (hk : p.k.val = 36) :
    exec .wireEnd s = sendWrite p Config.endByte s := by
  have hbyte : endFrameByte p.k = some Config.endByte := by rw [hk]; rfl
  simp only [exec, execWireEnd, sendFrame, hs, hbyte]

/-- Before the end frame there are writes left. -/
theorem SeqPos.number_lt_of_byte_lt {p : SeqPos} (hk : p.k.val < 36) : p.number < 887 := by
  have hj : p.j.val < 8 := p.j.isLt
  have hnum : p.number = (p.k.val * 8 + p.j.val) * 3 + (match p.ph with | .data => 0 | .clockHigh => 1 | .clockLow => 2) :=
    rfl
  cases hph : p.ph <;> rw [hph] at hnum <;> dsimp only at hnum <;> omega

@[simp] theorem wireBit_startByte (j : Nat) : wireBit Config.startByte j = false := by
  simp [wireBit, Config.startByte]

@[simp] theorem wireBit_endByte (j : Fin Config.pulsesPerByte) : wireBit Config.endByte j = true := by
  revert j
  decide

/-- Settles O38: a write of a zero byte, with writes left after it. -/
theorem wireStartSendsZeroBits : Obligations.WireStartSendsZeroBits := by
  intro s p hs hk hdone
  obtain ⟨q, -, hq, hw⟩ := sendWrite_done p Config.startByte s hdone (SeqPos.number_lt_of_byte_lt (by omega))
  refine ⟨q, hq, ?_⟩
  rw [exec_wireStart hs hk, hw]
  cases hph : p.ph <;> simp [SeqPos.write, hph, Level.ofBool]

/-- Settles O39: a write of byte `f` of the pixel, whose bits are those of the pattern. -/
theorem wirePixelSendsItsPattern : Obligations.WirePixelSendsItsPattern := by
  intro s p n f br b g r hs hk hdone
  have hn : n.val < 8 := n.isLt
  have hf := f.isLt
  have hbit := wireByte_bit ⟨r, g, b, br⟩ f p.j p.j.isLt
  obtain ⟨q, -, hq, hw⟩ := sendWrite_done p (Pixel.wireByte ⟨r, g, b, br⟩ f.val) s hdone
    (SeqPos.number_lt_of_byte_lt (by omega))
  refine ⟨q, hq, ?_⟩
  rw [exec_wirePixel hs hk, hw]
  cases hph : p.ph <;> simp [SeqPos.write, hph, hbit, pixelWord]

/-- The last write of the frame, done, ends the command (spec/41_transmit.md R140). -/
theorem sendWrite_done_last {p : SeqPos} (v : Byte) {s : State} (hdone : s.portAnswer = .done) (hp : p.number = 887) :
    sendWrite p v s = .next { s with
      seq := .idle
      responses := s.responses ++ [.ok]
      trace := s.trace ++ [p.write v]
      port := s.port.tail
      clk := match p.ph with | .data => s.clk | .clockHigh => .high | .clockLow => .low
      dat := match p.ph with | .data => Level.ofBool (wireBit v p.j) | .clockHigh | .clockLow => s.dat } := by
  simp only [sendWrite, hdone, State.portSet, State.advance, p.next_of_eq hp]
  obtain ⟨k, j, ph⟩ := p
  cases ph <;> rfl

/-- Settles O40: a write of a byte of ones, and the number of the write tells the last from the others. -/
theorem wireEndSendsOnesAndCompletes : Obligations.WireEndSendsOnesAndCompletes := by
  intro s p hs hk hdone
  rw [exec_wireEnd hs hk]
  rcases Nat.lt_or_eq_of_le p.number_le with hlt | hlast
  · obtain ⟨q, -, hq, hw⟩ := sendWrite_done p Config.endByte s hdone hlt
    refine ⟨_, hw, fun _ => ⟨rfl, q, rfl, hq⟩, fun h => absurd h hlt.ne, ?_⟩
    cases hph : p.ph <;> simp [SeqPos.write, hph, Level.ofBool]
  · refine ⟨_, sendWrite_done_last _ hdone hlast, fun h => absurd hlast h.ne, fun _ => ⟨rfl, rfl, rfl⟩, ?_⟩
    cases hph : p.ph <;> simp [SeqPos.write, hph, Level.ofBool]

end Sys2Proof.Machine

namespace Sys2Proof.Machine

/-! ## What the numbers of a command become (spec/40_pixel_store_ops.md R101, R102, R111) -/

/-- The product is truncated after it is formed, in the rationals (spec/40_pixel_store_ops.md R102, D4). -/
theorem brt5_toNat_eq_trunc (v : Rat) : ((brt5 v).toNat : Int) = trunc (31 * v) % 32 := by
  rw [brt5_toNat, truncMul_eq_trunc]
  norm_cast

/-- Settles O18: the law in the rational, of which the field and the integer are cases. -/
theorem coloursWrap : Obligations.ColoursWrap :=
  ⟨col8_toNat, fun f => by rw [col8_toNat, trunc_fieldValue], fun n => by rw [col8_toNat, trunc_intCast]⟩

/-- Settles O19: the exact product, of a rational and of what a field stands for. -/
theorem brightnessWraps : Obligations.BrightnessWraps :=
  ⟨brt5_toNat_eq_trunc, fun f => by rw [brt5_toNat, truncMul_fieldValue]⟩

theorem trunc_add_intCast_of_nonneg {v : Rat} {n : Int} (hv : 0 ≤ v) (hsum : 0 ≤ v + n) :
    trunc (v + n) = trunc v + n := by
  rw [trunc_of_nonneg _ hv, trunc_of_nonneg _ hsum, Int.floor_add_intCast]

/-- The mirror image: an integer passes through a truncation that does not change the sign. -/
theorem trunc_add_intCast_of_nonpos {v : Rat} {n : Int} (hv : v ≤ 0) (hsum : v + n ≤ 0) :
    trunc (v + n) = trunc v + n := by
  have hmirror : trunc (-v + (-n : Int)) = trunc (-v) + -n :=
    trunc_add_intCast_of_nonneg (neg_nonneg.mpr hv) (by push_cast; linarith)
  have hsign : v + n = -(-v + (-n : Int)) := by push_cast; ring
  rw [hsign, trunc_neg, hmirror, trunc_neg]
  ring

theorem col8_of_trunc_eq_zero {v : Rat} (h : trunc v = 0) : col8 v = 0#8 := by
  have hzero : col8 0 = 0#8 := by decide
  rw [← hzero]
  exact col8_congr (by rw [h]; rfl)

theorem brt5_of_trunc_eq_zero {v : Rat} (h : trunc (31 * v) = 0) : brt5 v = 0#5 := by
  have hzero : brt5 0 = 0#5 := by decide
  rw [← hzero]
  exact brt5_congr (by rw [h, mul_zero]; rfl)

/-- A colour repeats where truncation lets the 256 pass. -/
theorem col8_add_period {v : Rat} (h : trunc (v + 256) = trunc v + 256) : col8 (v + 256) = col8 v :=
  col8_congr (by rw [h, Int.add_emod_right])

/-- Settles O20: small numbers are truncated to 0, and a period of the number is a multiple of the modulus that truncation lets
pass: 256, and 31 * (32 / 31) = 32. -/
theorem wrapPeriods : Obligations.WrapPeriods := by
  refine ⟨fun v hlow hhigh => ?_, fun v hlow hhigh => ?_, fun v hv => ?_, fun v hv => ?_, fun n => ?_, fun v hv => ?_⟩
  · exact col8_of_trunc_eq_zero (trunc_small hlow hhigh)
  · exact brt5_of_trunc_eq_zero (trunc_small (by linarith) (by linarith))
  · exact col8_add_period (trunc_add_intCast_of_nonneg (n := 256) hv (by push_cast; linarith))
  · exact col8_add_period (trunc_add_intCast_of_nonpos (n := 256) (by linarith) (by push_cast; linarith))
  · exact col8_add_period (by rw [trunc_intCast]; exact_mod_cast trunc_intCast (n + 256))
  · have hproduct : 31 * (v + 32 / 31) = 31 * v + (32 : Int) := by push_cast; ring
    have hpass : trunc (31 * v + (32 : Int)) = trunc (31 * v) + 32 :=
      trunc_add_intCast_of_nonneg (by linarith) (by push_cast; linarith)
    exact brt5_congr (by rw [hproduct, hpass, Int.add_emod_right])

/-! ## What a pixel store command writes (spec/40_pixel_store_ops.md R103 to R110) -/

/-- The operation of a word is that of its opcode on its fields. -/
theorem decode_of_opField {w : CmdWord} {op : Byte} (h : opField w = op) :
    decode w = decode (packCommand op (idxField w) (redField w) (greenField w) (blueField w) (brightField w)) := by
  rw [← h, pack_fields]

@[simp] theorem keptBrightness_some (p : Pixel) : keptBrightness (some p) = p.br := rfl

@[simp] theorem keptBrightness_none : keptBrightness none = 31#5 := rfl

theorem recolour_some (r g b : Rat) (p : Pixel) : recolour r g b (some p) = ⟨col8 r, col8 g, col8 b, p.br⟩ := rfl

theorem recolour_none (r g b : Rat) : recolour r g b none = ⟨col8 r, col8 g, col8 b, 31#5⟩ := rfl

/-- A command that completes with the write of one slot: that slot holds the pixel, and nothing else is changed. -/
theorem complete_writeSlot (s : State) (n : Fin Config.numPixels) (x : Pixel) :
    ∃ t, complete (s.writeSlot n x) = .next t ∧ t.slot n = some x ∧ (∀ m, m ≠ n → t.slot m = s.slot m) ∧
      t = { s with pix := t.pix, responses := s.responses ++ [.ok] } :=
  ⟨_, rfl, State.slot_writeSlot_self s n x, fun m hm => State.slot_writeSlot_ne s n m x hm, rfl⟩

/-- A command that completes with the write of every slot: each holds what is made of its old content, and nothing else is
changed. -/
theorem complete_writeAll (s : State) (f : Option Pixel → Pixel) :
    ∃ t, complete (s.writeAll f) = .next t ∧ (∀ n, t.slot n = some (f (s.slot n))) ∧
      t = { s with pix := t.pix, responses := s.responses ++ [.ok] } :=
  ⟨_, rfl, State.slot_writeAll s f, rfl⟩

section Commands
variable (s : State) (n : Fin Config.numPixels) {i : Int} (r g b a : Rat)

theorem exec_setpix_out (h : i < 0 ∨ 7 < i) : exec (.setpix i r g b) s = raise (.indexOutOfRange i) s := by
  simp [exec, execSetpix, slotIndex_out i h]

theorem exec_setpixa_out (h : i < 0 ∨ 7 < i) : exec (.setpixa i r g b a) s = raise (.indexOutOfRange i) s := by
  simp [exec, execSetpixa, slotIndex_out i h]

theorem exec_setbrt_out (h : i < 0 ∨ 7 < i) : exec (.setbrt i a) s = raise (.indexOutOfRange i) s := by
  simp [exec, execSetbrt, slotIndex_out i h]

variable {s n}

theorem exec_setbrt_empty (h : s.slot n = none) : exec (.setbrt n.val a) s = raise (.pixelNotInitialized n) s := by
  simp [exec, execSetbrt, h]

theorem exec_setbrt_valid {p : Pixel} (h : s.slot n = some p) :
    exec (.setbrt n.val a) s = complete (s.writeSlot n { p with br := brt5 a }) := by
  simp [exec, execSetbrt, h]

end Commands

/-- Settles O24: INIT writes its pixel to every slot. -/
theorem initSetsEverySlot : Obligations.InitSetsEverySlot :=
  ⟨fun _ h => (decode_of_opField h).trans (decode_pack_init ..), by decide, fun s => complete_writeAll s _⟩

/-- Settles O25: in range one slot is recoloured, and a colour written to a slot keeps its brightness. -/
theorem setpixWritesOneSlot : Obligations.SetpixWritesOneSlot := by
  refine ⟨fun _ h => (decode_of_opField h).trans (decode_pack_setpix ..), fun s r g b => ⟨fun n => ?_, fun i hi => ?_⟩⟩
  · obtain ⟨t, ht, hslot, hothers, hframe⟩ := complete_writeSlot s n (recolour r g b (s.slot n))
    refine ⟨t, (exec_setpix_val n r g b s).trans ht, fun p hp => ?_, fun hnone => ?_, hothers, hframe⟩
    · rw [hslot, hp, recolour_some]
    · rw [hslot, hnone, recolour_none]
  · exact exec_setpix_out s r g b hi

/-- Settles O26: in range one slot is repainted, whatever it held. -/
theorem setpixaWritesOneSlot : Obligations.SetpixaWritesOneSlot := by
  refine ⟨fun _ h => (decode_of_opField h).trans (decode_pack_setpixa ..), fun s r g b a => ⟨fun n => ?_, fun i hi => ?_⟩⟩
  · rw [exec_setpixa_val]
    exact complete_writeSlot s n (repaint r g b a)
  · exact exec_setpixa_out s r g b a hi

/-- Settles O27: every slot is recoloured, each from its own content. -/
theorem setallWritesEverySlot : Obligations.SetallWritesEverySlot := by
  refine ⟨fun _ h => (decode_of_opField h).trans (decode_pack_setall ..), fun s r g b => ?_⟩
  obtain ⟨t, ht, hslot, hframe⟩ := complete_writeAll s (recolour r g b)
  refine ⟨t, ht, fun n p hp => ?_, fun n hnone => ?_, hframe⟩
  · rw [hslot, hp, recolour_some]
  · rw [hslot, hnone, recolour_none]

/-- White at brightness 1 is the pixel of INIT (spec/40_pixel_store_ops.md R108). -/
theorem repaint_white : repaint 255 255 255 1 = defaultPixel := by decide

/-- Settles O28: every slot is repainted, and white at 1 is what INIT paints. -/
theorem setallaWritesEverySlot : Obligations.SetallaWritesEverySlot := by
  refine ⟨fun _ h => (decode_of_opField h).trans (decode_pack_setalla ..), fun s r g b a => ?_⟩
  obtain ⟨t, ht, hslot, hframe⟩ := complete_writeAll s fun _ => repaint r g b a
  refine ⟨t, ht, hslot, hframe, ?_⟩
  simp only [exec, execSetalla, execInit, repaint_white]

/-- Settles O29: the three answers of SETBRT, by the index and then by the slot; of a fraction that is not negative, truncation
is the floor. -/
theorem setbrtWritesBrightnessAlone : Obligations.SetbrtWritesBrightnessAlone := by
  refine ⟨fun _ h => (decode_of_opField h).trans (decode_pack_setbrt ..), fun s a =>
    ⟨fun n p hp => ?_, fun n hnone => ?_, fun i hi => ?_, fun ha => ?_⟩⟩
  · rw [exec_setbrt_valid a hp]
    exact complete_writeSlot s n _
  · exact exec_setbrt_empty a hnone
  · exact exec_setbrt_out s a hi
  · rw [brt5_toNat_eq_trunc, trunc_of_nonneg _ (by positivity)]

/-- What CLEAR does: every slot is white, at the brightness that a recolouring keeps. -/
theorem exec_clear_slots (s : State) : ∃ t, exec .clear s = .next t ∧
    (∀ n, t.slot n = some ⟨255#8, 255#8, 255#8, keptBrightness (s.slot n)⟩) ∧
    t = { s with pix := t.pix, responses := s.responses ++ [.ok] } :=
  complete_writeAll s _

/-- Settles O30: the brightness kept is that of the pixel a slot holds, or 31. -/
theorem clearKeepsBrightness : Obligations.ClearKeepsBrightness := by
  refine ⟨fun _ h => (decode_of_opField h).trans (decode_pack_clear ..), fun s => ?_⟩
  obtain ⟨t, ht, hslot, hframe⟩ := exec_clear_slots s
  refine ⟨t, ht, fun n p hp => ?_, fun n hnone => ?_, hframe⟩
  · rw [hslot, hp, keptBrightness_some]
  · rw [hslot, hnone, keptBrightness_none]

/-- Settles O31: both leave white in every slot; the brightness is the kept one after CLEAR and 31 after INIT. -/
theorem clearDiffersFromInitInBrightness : Obligations.ClearDiffersFromInitInBrightness := by
  intro s t u ht hu
  obtain ⟨t', ht', hclear, hframe⟩ := exec_clear_slots s
  obtain ⟨u', hu', hinit, hframe'⟩ := initSetsEverySlot.2.2 s
  cases ht'.symm.trans ht
  cases hu'.symm.trans hu
  refine ⟨fun n x y hx hy => ?_, fun n => ?_, ?_⟩
  · cases (hclear n).symm.trans hx
    cases (hinit n).symm.trans hy
    exact ⟨rfl, rfl, rfl⟩
  · rw [hclear, hinit]
    cases hn : s.slot n with
    | none => simp
    | some p => simp
  · rw [hframe, hframe']

/-! ## How a pixel store command is answered (spec/40_pixel_store_ops.md R100, R112) -/

/-- All that a pixel store command can do: complete with a write of every slot or of one, or raise one of two faults. -/
theorem exec_store_shapes (i : Instr) (s : State) (hi : i.isStoreCommand = true) :
    (∃ f, exec i s = complete (s.writeAll f)) ∨ (∃ n x, exec i s = complete (s.writeSlot n x)) ∨
    (∃ j, exec i s = raise (.indexOutOfRange j) s) ∨ ∃ n, exec i s = raise (.pixelNotInitialized n) s := by
  cases i with
  | init | setall | setalla | clear => exact .inl ⟨_, rfl⟩
  | setpix i r g b =>
    rcases slotIndex_cases i with ⟨n, rfl, -⟩ | ⟨hout, -⟩
    · exact .inr (.inl ⟨n, _, exec_setpix_val n r g b s⟩)
    · exact .inr (.inr (.inl ⟨i, exec_setpix_out s r g b hout⟩))
  | setpixa i r g b a =>
    rcases slotIndex_cases i with ⟨n, rfl, -⟩ | ⟨hout, -⟩
    · exact .inr (.inl ⟨n, _, exec_setpixa_val n r g b a s⟩)
    · exact .inr (.inr (.inl ⟨i, exec_setpixa_out s r g b a hout⟩))
  | setbrt i a =>
    rcases slotIndex_cases i with ⟨n, rfl, -⟩ | ⟨hout, -⟩
    · cases hn : s.slot n with
      | none => exact .inr (.inr (.inr ⟨n, exec_setbrt_empty a hn⟩))
      | some p => exact .inr (.inl ⟨n, _, exec_setbrt_valid a hn⟩)
    · exact .inr (.inr (.inl ⟨i, exec_setbrt_out s a hout⟩))
  | xmit | wireStart | wirePixel | wireEnd => cases hi

/-- Settles O34: a write is answered OK, and the two faults write nothing and are not IoError. -/
theorem storeCommandsLeaveThePortAlone : Obligations.StoreCommandsLeaveThePortAlone := by
  intro i s hi
  rcases exec_store_shapes i s hi with ⟨f, h⟩ | ⟨n, x, h⟩ | ⟨j, h⟩ | ⟨n, h⟩
  · exact ⟨_, .ok, h, rfl, fun hok => absurd rfl hok, by decide⟩
  · exact ⟨_, .ok, h, rfl, fun hok => absurd rfl hok, by decide⟩
  · exact ⟨_, .fault (.indexOutOfRange j), h, rfl, fun _ => rfl, by simp [Response.code]⟩
  · exact ⟨_, .fault (.pixelNotInitialized n), h, rfl, fun _ => rfl, by simp [Response.code]⟩

/-- The outcome `o` of a command in `s` is a next state with the one response `x` added. -/
def State.AnsweredWith (s : State) (x : Response) (o : Host.Outcome State Fault Refusal) : Prop :=
  ∃ t, o = .next t ∧ t.responses = s.responses ++ [x]

theorem State.answeredWith_writeSlot (s : State) (n : Fin Config.numPixels) (p : Pixel) :
    s.AnsweredWith .ok (complete (s.writeSlot n p)) :=
  ⟨_, rfl, rfl⟩

theorem State.answeredWith_writeAll (s : State) (f : Option Pixel → Pixel) :
    s.AnsweredWith .ok (complete (s.writeAll f)) :=
  ⟨_, rfl, rfl⟩

theorem State.answeredWith_raise (s : State) (f : Fault) : s.AnsweredWith (.fault f) (raise f s) :=
  ⟨_, rfl, rfl⟩

/-- The answer to SETPIX is settled by its index. -/
theorem exec_setpix_answer (s : State) (i : Int) : ∃ x, ∀ r g b, s.AnsweredWith x (exec (.setpix i r g b) s) := by
  rcases slotIndex_cases i with ⟨n, rfl, -⟩ | ⟨hout, -⟩
  · exact ⟨.ok, fun r g b => exec_setpix_val n r g b s ▸ s.answeredWith_writeSlot n _⟩
  · exact ⟨_, fun r g b => exec_setpix_out s r g b hout ▸ s.answeredWith_raise _⟩

/-- The answer to SETPIXA is settled by its index. -/
theorem exec_setpixa_answer (s : State) (i : Int) : ∃ x, ∀ r g b a, s.AnsweredWith x (exec (.setpixa i r g b a) s) := by
  rcases slotIndex_cases i with ⟨n, rfl, -⟩ | ⟨hout, -⟩
  · exact ⟨.ok, fun r g b a => exec_setpixa_val n r g b a s ▸ s.answeredWith_writeSlot n _⟩
  · exact ⟨_, fun r g b a => exec_setpixa_out s r g b a hout ▸ s.answeredWith_raise _⟩

/-- The answer to SETBRT is settled by its index and by whether the slot is valid. -/
theorem exec_setbrt_answer (s : State) (i : Int) : ∃ x, ∀ a, s.AnsweredWith x (exec (.setbrt i a) s) := by
  rcases slotIndex_cases i with ⟨n, rfl, -⟩ | ⟨hout, -⟩
  · cases hn : s.slot n with
    | none => exact ⟨_, fun a => exec_setbrt_empty a hn ▸ s.answeredWith_raise _⟩
    | some p => exact ⟨.ok, fun a => exec_setbrt_valid a hn ▸ s.answeredWith_writeSlot n _⟩
  · exact ⟨_, fun a => exec_setbrt_out s a hout ▸ s.answeredWith_raise _⟩

/-- Two outcomes with one answer, in the form of `Obligations.ValuesNeverFault`. -/
theorem State.AnsweredWith.both {s : State} {x : Response} {o o' : Host.Outcome State Fault Refusal}
    (h : s.AnsweredWith x o) (h' : s.AnsweredWith x o') : ∃ t u x, o = .next t ∧ o' = .next u ∧
      t.responses = s.responses ++ [x] ∧ u.responses = s.responses ++ [x] := by
  obtain ⟨t, ht, hx⟩ := h
  obtain ⟨u, hu, hx'⟩ := h'
  exact ⟨t, u, x, ht, hu, hx, hx'⟩

/-- Settles O35: the answer is the same for all numbers. -/
theorem valuesNeverFault : Obligations.ValuesNeverFault := by
  intro s i r g b a r' g' b' a'
  obtain ⟨_, hsetpix⟩ := exec_setpix_answer s i
  obtain ⟨_, hsetpixa⟩ := exec_setpixa_answer s i
  obtain ⟨_, hsetbrt⟩ := exec_setbrt_answer s i
  exact ⟨(hsetpix r g b).both (hsetpix r' g' b'), (hsetpixa r g b a).both (hsetpixa r' g' b' a'),
    s.answeredWith_writeAll _, s.answeredWith_writeAll _, (hsetbrt a).both (hsetbrt a')⟩

end Sys2Proof.Machine

namespace Sys2Proof.Machine

/-! ## The wire frame in hand (spec/30_encoding.md R71, spec/41_transmit.md R138) -/

theorem State.frameInHand_start (s : State) {p : SeqPos} (hk : p.k.val ≤ 3) : s.frameInHand p = some .wireStart :=
  if_pos (Nat.lt_succ_of_le hk)

theorem State.frameInHand_pixel {s : State} {p : SeqPos} {n : Fin Config.numPixels} {f : Fin 4} {x : Pixel}
    (hk : p.k.val = 4 + 4 * n.val + f.val) (hx : s.slot n = some x) :
    s.frameInHand p = some (.wirePixel x.br x.b x.g x.r) := by
  obtain ⟨hlow, hhigh, -⟩ := pixelByte_position n f
  rw [State.frameInHand, hk, if_neg (Nat.not_lt_of_le hlow), if_pos hhigh, pixelOfByte_eq, hx]

theorem State.frameInHand_end (s : State) {p : SeqPos} (hk : p.k.val = 36) : s.frameInHand p = some .wireEnd := by
  rw [State.frameInHand, hk]
  rfl

/-- Settles O4: the step runs the frame in hand, and that is fixed by the byte that SEQ is in. -/
theorem stepRunsTheWireFrame : Obligations.StepRunsTheWireFrame := by
  intro s p hr hp hs
  refine ⟨fun hk => ?_, fun n f x hk hx => ?_, fun hk => ?_⟩
  · exact step_of_frame s p _ hr hp hs (State.frameInHand_start _ hk)
  · exact step_of_frame s p _ hr hp hs (State.frameInHand_pixel (s := s.sampleReset) hk hx)
  · exact step_of_frame s p _ hr hp hs (State.frameInHand_end _ hk)

/-! ## XMIT (spec/41_transmit.md R130, R131) -/

theorem exec_xmit_empty {s : State} {n : Fin Config.numPixels} (hn : s.slot n = none)
    (hleast : ∀ m, m < n → s.slot m ≠ none) : exec .xmit s = raise (.pixelNotInitialized n) s := by
  simp only [exec, execXmit, firstInvalid_some s n hn hleast]

theorem exec_xmit_valid {s : State} (hvalid : ∀ n, s.slot n ≠ none) :
    exec .xmit s = .next { s with seq := .sending SeqPos.start } := by
  have hfirst : s.firstInvalid = none := (firstInvalid_none_iff s).mpr fun n => Option.ne_none_iff_exists'.mp (hvalid n)
  simp only [exec, execXmit, hfirst]

/-- Settles O37: the check of all slots, which finds the least empty one or none; INIT leaves none. -/
theorem xmitChecksThenStarts : Obligations.XmitChecksThenStarts := by
  refine ⟨fun _ h => (decode_of_opField h).trans (decode_pack_xmit ..), by decide, fun s n => exec_xmit_empty,
    fun s hvalid => ⟨_, exec_xmit_valid hvalid, rfl, rfl⟩, fun s t ht => ?_⟩
  obtain ⟨t', ht', hslot, -⟩ := initSetsEverySlot.2.2 s
  cases ht'.symm.trans ht
  exact ⟨_, exec_xmit_valid fun n => by simp [hslot], rfl⟩

/-! ## Writes that are not done (spec/41_transmit.md R141, R142) -/

theorem sendWrite_fail (p : SeqPos) (v : Byte) {s : State} (h : s.portAnswer = .fail) :
    sendWrite p v s = raise (.ioError p) { s.portSet (p.write v) with seq := .idle } := by
  simp only [sendWrite, h]

theorem sendWrite_never (p : SeqPos) (v : Byte) {s : State} (h : s.portAnswer = .never) :
    sendWrite p v s = .next { s.portSet (p.write v) with portStuck := true } := by
  simp only [sendWrite, h]

/-- A state that has the levels from after a write, whatever else it has: the written line is old or new, the other is old
(spec/41_transmit.md R141). -/
theorem State.line_of_portSet {s t : State} {e : Event} (hclk : t.clk = (s.portSet e).clk)
    (hdat : t.dat = (s.portSet e).dat) (l : Line) : t.line l = s.line l ∨ (l = e.line ∧ t.line l = e.level) := by
  have hline : t.line l = (s.portSet e).line l := by
    cases l
    · exact hclk
    · exact hdat
  rw [hline]
  exact State.line_portSet s e l

/-- Settles O42: the write is recorded and answered with its fault, and no line but its own is moved. -/
theorem failedWriteAborts : Obligations.FailedWriteAborts := by
  intro s p px hr hp hs hx hfail
  have hstep := (step_of_sending s p px hr hp hs hx).trans (sendWrite_fail p _ (s := s.sampleReset) hfail)
  refine ⟨_, hstep, rfl, by simp, by simp, by simpa using hp, by simp, by simp, fun l hl => ?_, fun l => ?_⟩
  · exact (State.line_of_portSet (s := s.sampleReset) rfl rfl l).resolve_right fun h => hl h.1
  · exact (State.line_of_portSet (s := s.sampleReset) rfl rfl l).imp_right And.right

/-! ## Several steps -/

theorem State.after_succ {s t : State} (h : step s = .next t) (n : Nat) : s.after (n + 1) = t.after n := by
  simp only [State.after, h]

/-- A port that does the next writes does those that are left of them after `m`. -/
theorem State.PortDoneFor.drop {s t : State} {m n : Nat} (h : s.PortDoneFor (m + n)) (ht : t.port = s.port.drop m) :
    t.PortDoneFor n := by
  intro i hi
  have hdone := h (m + i) (by omega)
  rwa [ht, List.getD_eq_getElem?_getD, List.getElem?_drop, ← List.getD_eq_getElem?_getD]

/-- A host that does not reset in the next steps does not in those that are left of them after `m`. -/
theorem State.NoResetFor.drop {s t : State} {m n : Nat} (h : s.NoResetFor (m + n))
    (ht : t.resetLine = s.resetLine.drop m) : t.NoResetFor n := by
  intro i hi
  have hno := h (m + i) (by omega)
  rwa [ht, List.getD_eq_getElem?_getD, List.getElem?_drop, ← List.getD_eq_getElem?_getD]

theorem State.PortDoneFor.tail {s t : State} {n : Nat} (h : s.PortDoneFor (n + 1)) (ht : t.port = s.port.tail) :
    t.PortDoneFor n :=
  State.PortDoneFor.drop (s := s) (m := 1) (by rwa [Nat.add_comm]) (ht.trans List.drop_one.symm)

theorem State.NoResetFor.tail {s t : State} {n : Nat} (h : s.NoResetFor (n + 1)) (ht : t.resetLine = s.resetLine.tail) :
    t.NoResetFor n :=
  State.NoResetFor.drop (s := s) (m := 1) (by rwa [Nat.add_comm]) (ht.trans List.drop_one.symm)

/-- While a port write does not return, nothing but the reset line is used up. -/
theorem after_stuck (n : Nat) (s : State) (hp : s.portStuck = true) (hno : s.NoResetFor n) :
    s.after n = some { s with resetLine := s.resetLine.drop n } := by
  induction n generalizing s with
  | zero => rfl
  | succ n ih =>
    rw [State.after_succ (step_of_stuck s (resetNow_of_noReset s n hno) hp), ih s.sampleReset hp (hno.tail rfl)]
    simp [State.sampleReset]

/-- Settles O43: the write is recorded and the port is stuck at it, and from there on the state repeats itself. -/
theorem stuckWriteHangs : Obligations.StuckWriteHangs := by
  refine ⟨fun s p px hr hp hs hx hnever => ?_, fun s n => after_stuck n s⟩
  have hstep := (step_of_sending s p px hr hp hs hx).trans (sendWrite_never p _ (s := s.sampleReset) hnever)
  exact ⟨_, hstep, by simpa using hs, by simp [State.busy, hs], rfl, by simp, by simp, by simp, by simp⟩

/-! ## The events of a frame (spec/41_transmit.md R139, R143) -/

theorem eventAt_data (px : Fin Config.numPixels → Pixel) (n : Nat) :
    eventAt px (3 * n) = ⟨.dat, Level.ofBool (frameBit px n)⟩ := by
  simp [eventAt]

theorem eventAt_clockHigh (px : Fin Config.numPixels → Pixel) (n : Nat) : eventAt px (3 * n + 1) = ⟨.clk, .high⟩ := by
  simp [eventAt]

theorem eventAt_clockLow (px : Fin Config.numPixels → Pixel) (n : Nat) : eventAt px (3 * n + 2) = ⟨.clk, .low⟩ := by
  simp [eventAt]

/-- Settles O46: write 3 n and the two after it are the three writes of bit n. -/
theorem frameIsThreeWritesPerBit : Obligations.FrameIsThreeWritesPerBit := by
  refine fun px => ⟨length_frameEvents px, fun n hn => ⟨?_, ?_, ?_⟩⟩
  · rw [getElem_frameEvents px _ (by omega), eventAt_data]
    rfl
  · rw [getElem_frameEvents px _ (by omega), eventAt_clockHigh]
  · rw [getElem_frameEvents px _ (by omega), eventAt_clockLow]

/-- From a HIGH clock the clock-HIGH write of a bit is no edge, and its clock-LOW write leaves the clock LOW. -/
theorem sampledBits_high_bitEvents (dat : Level) (x : Bool) (es : List Event) :
    sampledBits .high dat (bitEvents x ++ es) = sampledBits .low (Level.ofBool x) es := by
  simp [bitEvents, sampledBits]

/-- Settles O49: the edges of the 296 bits, one after the other; from a HIGH clock the first rising edge is missing. -/
theorem sampledStream : Obligations.SampledStream := by
  intro px dat
  rw [frameEvents_eq_bits, List.range_eq_range']
  refine ⟨sampledBits_bits _ _ _ _, fun clk => fallingBits_bits _ _ _ _ _, ?_⟩
  rw [List.range'_succ, List.flatMap_cons, sampledBits_high_bitEvents, sampledBits_bits, List.map_cons, List.tail_cons]

/-! ## A running transmit (spec/41_transmit.md R136, R138, R140) -/

/-- A transmit runs and has come to `p` by writes that were done: the store is `px` and the lines agree with the position. -/
structure State.SendsAt (s : State) (p : SeqPos) (px : Fin Config.numPixels → Pixel) : Prop where
  seq : s.seq = .sending p
  shows : s.Shows px
  notStuck : s.portStuck = false
  lines : LinesAgree p px s

/-- At the first write the lines may have any levels (spec/70_reset_and_hazards.md R194). -/
theorem State.sendsAt_start {s : State} {px : Fin Config.numPixels → Pixel} (hseq : s.seq = .sending SeqPos.start)
    (hx : s.Shows px) (hp : s.portStuck = false) : s.SendsAt SeqPos.start px :=
  ⟨hseq, hx, hp, .inl rfl⟩

/-- The lines after the write at `p` is done agree with the position after it. -/
theorem LinesAgree.next {s t : State} {p q : SeqPos} {px : Fin Config.numPixels → Pixel} (h : LinesAgree p px s)
    (hq : p.next = some q)
    (hclk : t.clk = match p.ph with | .data => s.clk | .clockHigh => .high | .clockLow => .low)
    (hdat : t.dat = match p.ph with | .data => Level.ofBool (p.bit px) | .clockHigh | .clockLow => s.dat) :
    LinesAgree q px t := by
  have hnum := (p.next_eq_some_iff q).mp hq
  obtain ⟨k, j, ph⟩ := p
  cases ph with
  | data =>
    cases hq
    refine ⟨?_, hdat⟩
    rw [hclk, hnum]
    exact h.imp_left fun h0 => by rw [h0]
  | clockHigh =>
    cases hq
    exact ⟨hclk, hdat.trans h.2⟩
  | clockLow =>
    have hph : q.ph = .data := by
      simp only [SeqPos.next] at hq
      split_ifs at hq <;> cases hq <;> rfl
    rw [LinesAgree, hph]
    exact .inr hclk

/-- The last write of a transmit is the clock-LOW write of the last bit of the end frame. -/
theorem SeqPos.eq_last {p : SeqPos} (h : p.number = 887) : p = ⟨⟨36, by decide⟩, ⟨7, by decide⟩, .clockLow⟩ :=
  SeqPos.number_inj (h.trans (by decide))

/-- The bits of the end frame are ones (spec/30_encoding.md R74). -/
theorem SeqPos.bit_end {p : SeqPos} (hk : p.k.val = 36) (px : Fin Config.numPixels → Pixel) : p.bit px = true := by
  have hbyte : frameByte px 36 = Config.endByte := rfl
  rw [SeqPos.bit, hk, hbyte, wireBit_endByte]

section RunningTransmit
variable {s : State} {p : SeqPos} {px : Fin Config.numPixels → Pixel}

theorem State.SendsAt.step_eq (h : s.SendsAt p px) (hr : s.resetNow = false) :
    step s = sendWrite p (frameByte px p.k) s.sampleReset :=
  step_of_sending s p px hr h.notStuck h.seq h.shows

/-- A write that is done, but for the last: the transmit has come to the next position, and the write is recorded. -/
theorem State.SendsAt.step_done (h : s.SendsAt p px) (hr : s.resetNow = false) (hdone : s.portAnswer = .done)
    (hp : p.number < 887) : ∃ q t, q.number = p.number + 1 ∧ step s = .next t ∧ t.SendsAt q px ∧
      t = { s with
        seq := .sending q
        clk := t.clk
        dat := t.dat
        trace := s.trace ++ [p.write (frameByte px p.k)]
        port := s.port.tail
        resetLine := s.resetLine.tail } := by
  obtain ⟨q, hnext, hq, hw⟩ := sendWrite_done p (frameByte px p.k) s.sampleReset hdone hp
  exact ⟨q, _, hq, (h.step_eq hr).trans hw, ⟨rfl, h.shows, h.notStuck, h.lines.next hnext rfl rfl⟩, rfl⟩

/-- The last write, done: the command ends with CLK LOW, and with DAT HIGH from the last bit of the end frame. -/
theorem State.SendsAt.step_last (h : s.SendsAt p px) (hr : s.resetNow = false) (hdone : s.portAnswer = .done)
    (hp : p.number = 887) : step s = .next { s with
      seq := .idle
      clk := .low
      dat := .high
      trace := s.trace ++ [p.write (frameByte px p.k)]
      responses := s.responses ++ [.ok]
      port := s.port.tail
      resetLine := s.resetLine.tail } := by
  rw [h.step_eq hr, sendWrite_done_last _ (s := s.sampleReset) hdone hp]
  have hlines := h.lines
  obtain rfl := SeqPos.eq_last hp
  have hdat : s.dat = .high := hlines.2.trans (congrArg Level.ofBool (SeqPos.bit_end rfl px))
  simp [State.sampleReset, hdat]

end RunningTransmit

/-! ## The invariant of a running transmit (spec/41_transmit.md R134, R138, R142) -/

theorem State.inv_iff_of_sending {s : State} {p : SeqPos} (h : s.seq = .sending p) : s.Inv ↔
    ∃ px before, s.Shows px ∧ s.trace = before ++ (frameEvents px).take (p.number + (if s.portStuck then 1 else 0)) ∧
      (s.portStuck = false → LinesAgree p px s) := by
  simp [State.Inv, h]

/-- Where the port is not stuck, the invariant says that a transmit runs and that the writes before it are in the trace. -/
theorem State.inv_iff_sendsAt {s : State} {p : SeqPos} (h : s.seq = .sending p) (hp : s.portStuck = false) :
    s.Inv ↔ ∃ px before, s.SendsAt p px ∧ s.trace = before ++ (frameEvents px).take p.number := by
  rw [State.inv_iff_of_sending h, hp]
  constructor
  · rintro ⟨px, before, hx, htrace, hlines⟩
    exact ⟨px, before, ⟨h, hx, hp, hlines rfl⟩, htrace⟩
  · rintro ⟨px, before, hsends, htrace⟩
    exact ⟨px, before, hsends.shows, htrace, fun _ => hsends.lines⟩

/-- The writes before a position with the write at it after them. -/
theorem trace_append_write {p : SeqPos} {px : Fin Config.numPixels → Pixel} {es before : List Event}
    (h : es = before ++ (frameEvents px).take p.number) :
    es ++ [p.write (frameByte px p.k)] = before ++ (frameEvents px).take (p.number + 1) := by
  rw [h, take_frameEvents_succ, List.append_assoc]

/-- A command leaves the port as it is; if it starts a transmit, its check has found every slot valid. -/
theorem exec_command_inv {i : Instr} {s : State} (hi : i.isCommand = true) (hs : s.seq = .idle)
    (hp : s.portStuck = false) : ∃ t, exec i s = .next t ∧ t.Inv := by
  obtain ⟨t, ht, -, -, -, -, -, hstuck, -, -, -, -, hend⟩ := exec_command_next i s hi
  refine ⟨t, ht, ?_⟩
  rcases hend with ⟨hseq, -⟩ | ⟨hseq, -, hfirst⟩
  · exact (State.inv_iff_of_idle (hseq.trans hs)).mpr (hstuck.trans hp)
  · obtain ⟨px, hx⟩ := exists_shows t hfirst
    exact (State.inv_iff_sendsAt hseq (hstuck.trans hp)).mpr
      ⟨px, t.trace, State.sendsAt_start hseq hx (hstuck.trans hp), by simp [SeqPos.start, SeqPos.number]⟩

/-- A step of an idle block that is not reset. -/
theorem step_inv_of_idle {s : State} (hr : s.resetNow = false) (hp : s.portStuck = false) (hs : s.seq = .idle) :
    ∃ t, step s = .next t ∧ t.Inv := by
  cases hc : s.cmds with
  | nil => exact ⟨_, step_of_waiting s hr hp hs hc, (State.inv_iff_of_idle hs).mpr hp⟩
  | cons w rest =>
    cases hd : decode w with
    | illegal o => exact ⟨_, step_of_illegal s w rest o hr hp hs hc hd, (State.inv_iff_of_idle hs).mpr hp⟩
    | op i =>
      rw [step_of_command s w rest i hr hp hs hc hd]
      exact exec_command_inv (isCommand_of_decode hd) hs hp

/-- A step of a running transmit that is not reset, by the port's answer. -/
theorem State.SendsAt.step_inv {s : State} {p : SeqPos} {px : Fin Config.numPixels → Pixel} {before : List Event}
    (h : s.SendsAt p px) (hr : s.resetNow = false) (htrace : s.trace = before ++ (frameEvents px).take p.number) :
    ∃ t, step s = .next t ∧ t.Inv := by
  have hp := h.notStuck
  cases ha : s.portAnswer with
  | done =>
    rcases Nat.lt_or_eq_of_le p.number_le with hlt | hlast
    · obtain ⟨q, t, hq, ht, hsends, hframe⟩ := h.step_done hr ha hlt
      refine ⟨t, ht, (State.inv_iff_sendsAt hsends.seq hsends.notStuck).mpr ⟨px, before, hsends, ?_⟩⟩
      rw [hframe, hq]
      exact trace_append_write htrace
    · exact ⟨_, h.step_last hr ha hlast, (State.inv_iff_of_idle rfl).mpr hp⟩
  | fail =>
    exact ⟨_, (h.step_eq hr).trans (sendWrite_fail p _ (s := s.sampleReset) ha),
      (State.inv_iff_of_idle rfl).mpr (by simpa using hp)⟩
  | never =>
    refine ⟨_, (h.step_eq hr).trans (sendWrite_never p _ (s := s.sampleReset) ha),
      (State.inv_iff_of_sending (p := p) (by simpa using h.seq)).mpr ⟨px, before, ?_, ?_, fun hfree => by cases hfree⟩⟩
    · exact fun n => (State.slot_congr (by simp) n).trans (h.shows n)
    · simpa using trace_append_write htrace

/-- Settles O51: a reset leaves the block idle, a write that does not return leaves it as it is, an idle block accepts or
waits, and a running transmit makes its next write. -/
theorem stepKeepsTheInvariant : Obligations.StepKeepsTheInvariant := by
  intro s hinv
  cases hr : s.resetNow with
  | true => exact ⟨_, step_of_reset s hr, (State.inv_iff_of_idle rfl).mpr rfl⟩
  | false =>
    cases hp : s.portStuck with
    | true => exact ⟨_, step_of_stuck s hr hp, hinv⟩
    | false =>
      cases hs : s.seq with
      | idle => exact step_inv_of_idle hr hp hs
      | sending p =>
        obtain ⟨px, before, hsends, htrace⟩ := (State.inv_iff_sendsAt hs hp).mp hinv
        exact hsends.step_inv hr htrace

/-! ## A whole transmit (spec/41_transmit.md R134, R139, R144) -/

/-- The writes from a position on are its own and those from the next number on. -/
theorem drop_frameEvents (p : SeqPos) (px : Fin Config.numPixels → Pixel) :
    (frameEvents px).drop p.number = p.write (frameByte px p.k) :: (frameEvents px).drop (p.number + 1) := by
  have hlt : p.number < 888 := Nat.lt_succ_of_le p.number_le
  obtain ⟨hlen, hget⟩ := List.getElem?_eq_some_iff.mp (getElem_frameEvents px p.number hlt)
  rw [List.drop_eq_getElem_cons hlen, hget, p.write_eq_eventAt]

/-- From a position with `n` writes after it, `n + 1` steps make the rest of the frame and end the command. -/
theorem State.SendsAt.after_frame {s : State} {p : SeqPos} {px : Fin Config.numPixels → Pixel} (n : Nat)
    (h : s.SendsAt p px) (hn : p.number + n = 887) (hdone : s.PortDoneFor (n + 1)) (hno : s.NoResetFor (n + 1)) :
    s.after (n + 1) = some { s with
      seq := .idle
      clk := .low
      dat := .high
      trace := s.trace ++ (frameEvents px).drop p.number
      responses := s.responses ++ [.ok]
      port := s.port.drop (n + 1)
      resetLine := s.resetLine.drop (n + 1) } := by
  induction n generalizing s p with
  | zero =>
    have hend : (frameEvents px).drop (p.number + 1) = [] := List.drop_eq_nil_of_le (by rw [length_frameEvents]; omega)
    rw [after_one _ _ (h.step_last (resetNow_of_noReset s 0 hno) (portAnswer_of_done s 0 hdone) hn), drop_frameEvents, hend]
    simp
  | succ n ih =>
    obtain ⟨q, t, hq, ht, hsends, hframe⟩ :=
      h.step_done (resetNow_of_noReset s _ hno) (portAnswer_of_done s _ hdone) (by omega)
    have hdone' : t.PortDoneFor (n + 1) := hdone.tail (by rw [hframe])
    have hno' : t.NoResetFor (n + 1) := hno.tail (by rw [hframe])
    rw [State.after_succ ht, ih hsends (by omega) hdone' hno', drop_frameEvents p, hq, hframe]
    simp

/-- Settles O47: the accepting step, and then the whole frame from its first write. -/
theorem transmitSendsTheFrame : Obligations.TransmitSendsTheFrame := by
  intro s px w rest hx hs hp hc hd hdone hno
  have hvalid : ∀ n, (s.sampleReset.consume rest).slot n ≠ none := fun n => by
    rw [State.consume_slot]
    exact ne_of_eq_of_ne (hx n) (Option.some_ne_none _)
  have hstart : step s = .next { s.sampleReset.consume rest with seq := .sending SeqPos.start } :=
    (step_of_command s w rest .xmit (resetNow_of_noReset s 888 hno) hp hs hc hd).trans (exec_xmit_valid hvalid)
  have hsends : State.SendsAt { s.sampleReset.consume rest with seq := .sending SeqPos.start } SeqPos.start px :=
    State.sendsAt_start rfl hx hp
  rw [State.after_succ hstart, hsends.after_frame 887 rfl hdone (hno.tail rfl)]
  simp [State.sampleReset, State.consume, SeqPos.start, SeqPos.number]

/-- Settles O48: the first transmit leaves the store and the second word as they were, so the second sends the same frame. -/
theorem repeatedTransmitSendsTheSame : Obligations.RepeatedTransmitSendsTheSame := by
  intro s px v w rest hx hs hp hc hv hw hdone hno
  have hfirst := transmitSendsTheFrame s px v (w :: rest) hx hs hp hc hv (fun i hi => hdone i (by omega))
    fun i hi => hno i (by omega)
  have hsecond := transmitSendsTheFrame { s with
      cmds := w :: rest, accepted := s.accepted + 1, seq := .idle, clk := .low, dat := .high,
      trace := s.trace ++ frameEvents px, responses := s.responses ++ [.ok], port := s.port.drop 888,
      resetLine := s.resetLine.drop 889 }
    px w rest hx rfl hp rfl hw (hdone.drop (m := 888) rfl) (hno.drop (m := 889) rfl)
  exact ⟨_, _, frameEvents px, hfirst, hsecond, rfl, rfl, length_frameEvents px, rfl, rfl, rfl⟩

end Sys2Proof.Machine

namespace Sys2Proof.Machine

/-! ## The words that are presented (spec/60_exceptions.md R172) -/

/-- An idle block whose port is not stuck is ready. -/
theorem State.ready_of_idle {s : State} (hp : s.portStuck = false) (hs : s.seq = .idle) : s.ready = true := by
  simp [State.ready, State.busy, hp, hs]

/-- Settles O58: of what a step can be, only acceptance by an idle block takes a word, answered at once or executed. -/
theorem wordsAreTakenInOrder : Obligations.WordsAreTakenInOrder := by
  intro s t h
  rcases step_cases s t h with ⟨-, rfl⟩ | ⟨-, -, rfl⟩ | ⟨-, -, -, -, rfl⟩ | ⟨hr, hp, hs, w, rest, o, hc, -, rfl⟩ |
    ⟨hr, hp, hs, w, rest, i, hc, hd, hx⟩ | ⟨-, -, p, i, v, -, -, -, hw⟩
  · exact .inl ⟨rfl, rfl⟩
  · exact .inl ⟨rfl, rfl⟩
  · exact .inl ⟨rfl, rfl⟩
  · exact .inr ⟨w, hc, rfl, State.ready_of_idle hp hs, hr⟩
  · obtain ⟨u, hu, -, -, -, -, -, -, hcmds, haccepted, -⟩ :=
      exec_command_next i (s.sampleReset.consume rest) (isCommand_of_decode hd)
    cases hu.symm.trans hx
    exact .inr ⟨w, hcmds ▸ hc, haccepted, State.ready_of_idle hp hs, hr⟩
  · obtain ⟨u, hu, -, hcmds, haccepted, -⟩ := sendWrite_next p v s.sampleReset
    cases hu.symm.trans hw
    exact .inl ⟨hcmds, haccepted⟩

/-- Settles O6: a word is taken only where the port is ready. -/
theorem busyAcceptsNothing : Obligations.BusyAcceptsNothing := by
  intro s t hbusy h
  rcases wordsAreTakenInOrder s t h with ⟨hcmds, -⟩ | ⟨w, -, -, hready, -⟩
  · exact hcmds
  · cases hbusy.symm.trans hready

/-! ## One step of an idle block (spec/60_exceptions.md R172, R175) -/

/-- Settles O3: the next word is consumed and its operation executed. -/
theorem stepRunsTheAcceptedCommand : Obligations.StepRunsTheAcceptedCommand :=
  step_of_command

/-- Settles O5: a reserved opcode decodes to Illegal, and that is answered in the accepting step. -/
theorem reservedOpcodeIsAnswered : Obligations.ReservedOpcodeIsAnswered := by
  intro s w rest hr hp hs hc hreserved
  have hd : decode w = .illegal (opField w) := (illegalExactlyOnReserved w _).mpr ⟨rfl, hreserved⟩
  exact ⟨_, step_of_illegal s w rest _ hr hp hs hc hd, by simp [State.codes, Response.code], rfl⟩

/-- Settles O7: with nothing presented the reset line is sampled, whether a port write is pending or not. -/
theorem idleBlockWaits : Obligations.IdleBlockWaits := by
  intro s hr hs hc
  change step s = .next s.sampleReset
  cases hp : s.portStuck with
  | true => exact step_of_stuck s hr hp
  | false => exact step_of_waiting s hr hp hs hc

/-! ## Response codes and faults (spec/60_exceptions.md R161, R168) -/

theorem Response.code_le (r : Response) : r.code.toNat ≤ 4 := by
  rcases r with _ | ⟨i⟩ | ⟨n⟩ | ⟨p⟩ | ⟨o⟩ <;> simp [Response.code]

/-- Settles O8: the table of codes, whose greatest is 4. -/
theorem responseCodeNumbers : Obligations.ResponseCodeNumbers :=
  ⟨rfl, fun _ => rfl, fun _ => rfl, fun _ => rfl, fun _ => rfl, Response.code_le⟩

section Faults
variable {s t u : State} {f g : Fault}

/-- A command that completes has not been answered with a fault. -/
theorem complete_not_fault (h : complete u = .next t) (hu : u.responses = s.responses) :
    t.responses ≠ s.responses ++ [.fault f] := by
  cases h
  simp [hu]

/-- A command that raises a fault is answered with it and changes nothing else. -/
theorem raise_fault (h : raise g s = .next t) (hf : t.responses = s.responses ++ [.fault f]) :
    t = s.respond (.fault f) := by
  cases h
  obtain rfl : g = f := by simpa using hf
  rfl

/-- A pixel store command that is answered with a fault changes nothing. -/
theorem exec_store_fault {i : Instr} (hi : i.isStoreCommand = true) (h : exec i s = .next t)
    (hf : t.responses = s.responses ++ [.fault f]) : t = s.respond (.fault f) := by
  rcases exec_store_shapes i s hi with ⟨w, hx⟩ | ⟨n, x, hx⟩ | ⟨j, hx⟩ | ⟨n, hx⟩
  · exact absurd hf (complete_not_fault (hx.symm.trans h) rfl)
  · exact absurd hf (complete_not_fault (hx.symm.trans h) rfl)
  · exact raise_fault (hx.symm.trans h) hf
  · exact raise_fault (hx.symm.trans h) hf

/-- An XMIT that is answered with a fault changes nothing; where its check passes it has no response yet. -/
theorem exec_xmit_fault (h : exec .xmit s = .next t) (hf : t.responses = s.responses ++ [.fault f]) :
    t = s.respond (.fault f) := by
  simp only [exec, execXmit] at h
  cases hfirst : s.firstInvalid with
  | some n =>
    rw [hfirst] at h
    exact raise_fault h hf
  | none =>
    rw [hfirst] at h
    cases h
    simp at hf

/-- The one fault of a wire frame is IoError (spec/60_exceptions.md R164). -/
theorem sendFrame_fault {byteAt : Nat → Option Byte} (h : sendFrame byteAt s = .next t)
    (hf : t.responses = s.responses ++ [.fault f]) : ∃ p, f = .ioError p := by
  obtain ⟨p, v, -, -, hw⟩ := sendFrame_inv byteAt s t h
  obtain ⟨u, hu, -, -, -, -, -, -, hresp, -⟩ := sendWrite_next p v s
  cases hu.symm.trans hw
  rcases hresp with hr | hr | hr <;> rw [hr] at hf
  · simp at hf
  · simp at hf
  · exact ⟨p, by simpa using hf.symm⟩

end Faults

/-- Settles O36: a pixel store command or an XMIT that faults changes nothing, and a wire frame's fault is IoError. -/
theorem faultsChangeNothing : Obligations.FaultsChangeNothing := by
  intro i s t f h hf hio
  have hframe {byteAt : Nat → Option Byte} (hsend : sendFrame byteAt s = .next t) : False := by
    obtain ⟨p, hp⟩ := sendFrame_fault hsend hf
    exact hio p hp
  cases i with
  | init | setpix | setpixa | setall | setalla | setbrt | clear => exact exec_store_fault rfl h hf
  | xmit => exact exec_xmit_fault h hf
  | wireStart | wirePixel | wireEnd => exact (hframe h).elim

/-! ## The count of responses (spec/60_exceptions.md R161) -/

theorem State.running_of_idle {s : State} (h : s.seq = .idle) : s.running = 0 := by
  simp [State.running, State.busy, h]

theorem State.running_of_sending {s : State} {p : SeqPos} (h : s.seq = .sending p) : s.running = 1 := by
  simp [State.running, State.busy, h]

/-- A command of an idle block is answered, or it is the transmit that now runs. -/
theorem exec_command_count {i : Instr} {s t : State} (hi : i.isCommand = true) (hs : s.seq = .idle)
    (h : exec i s = .next t) : t.responses.length + t.running = s.responses.length + s.running + 1 ∧
      t.accepted = s.accepted := by
  obtain ⟨u, hu, -, -, -, -, -, -, -, haccepted, -, -, hend⟩ := exec_command_next i s hi
  cases hu.symm.trans h
  refine ⟨?_, haccepted⟩
  rcases hend with ⟨hseq, r, hr⟩ | ⟨hseq, hr, -⟩
  · simp [hr, State.running_of_idle hs, State.running_of_idle (hseq.trans hs)]
  · rw [hr, State.running_of_idle hs, State.running_of_sending hseq]

/-- A port write of a running transmit ends it with its response, or leaves it running. -/
theorem sendWrite_count {p : SeqPos} {v : Byte} {s t : State} (hs : s.seq = .sending p) (h : sendWrite p v s = .next t) :
    t.responses.length + t.running = s.responses.length + s.running ∧ t.accepted = s.accepted := by
  obtain ⟨u, hu, -, -, haccepted, -, -, -, -, hcount⟩ := sendWrite_next p v s
  cases hu.symm.trans h
  exact ⟨hcount hs, haccepted⟩

/-- A step that is no reset keeps the number of accepted words that neither run nor have a response. -/
theorem step_count {s t : State} (hr : s.resetNow = false) (h : step s = .next t) :
    t.responses.length + t.running + s.accepted = s.responses.length + s.running + t.accepted := by
  rcases step_cases s t h with ⟨hr', -⟩ | ⟨-, -, rfl⟩ | ⟨-, -, -, -, rfl⟩ | ⟨-, -, -, w, rest, o, -, -, rfl⟩ |
    ⟨-, -, hs, w, rest, i, -, hd, hx⟩ | ⟨-, -, p, i, v, hs, -, -, hw⟩
  · cases hr.symm.trans hr'
  · rfl
  · rfl
  · have hrun : ((s.sampleReset.consume rest).respond (.fault (.illegalCommand o))).running = s.running := rfl
    simp only [State.respond_responses, State.respond_accepted, State.consume_responses, State.consume_accepted,
      State.sampleReset_responses, State.sampleReset_accepted, hrun, List.length_append, List.length_singleton]
    omega
  · obtain ⟨hcount, haccepted⟩ := exec_command_count (s := s.sampleReset.consume rest) (isCommand_of_decode hd) hs hx
    rw [hcount, haccepted]
    exact Nat.add_right_comm _ 1 _
  · obtain ⟨hcount, haccepted⟩ := sendWrite_count (s := s.sampleReset) hs hw
    rw [hcount, haccepted]
    rfl

/-- A reset gives no response and leaves no transmit running. -/
theorem reset_count {s t : State} (hr : s.resetNow = true) (h : step s = .next t) :
    t.responses = s.responses ∧ t.running = 0 ∧ t.accepted = s.accepted := by
  cases (step_of_reset s hr).symm.trans h
  exact ⟨rfl, rfl, rfl⟩

/-- Every step keeps that responses and a running transmit belong to accepted words. -/
theorem State.Counted.step {s t : State} (hcounted : s.Counted) (h : Machine.step s = .next t) : t.Counted := by
  unfold State.Counted at hcounted ⊢
  cases hr : s.resetNow with
  | false =>
    have hcount := step_count hr h
    omega
  | true =>
    obtain ⟨hresp, hrun, haccepted⟩ := reset_count hr h
    rw [hresp, hrun, haccepted]
    omega

/-- Settles O59: by the count of a step and of a reset; after reset there is nothing to count. -/
theorem responsesMatchAcceptedWords : Obligations.ResponsesMatchAcceptedWords :=
  ⟨Nat.le_refl 0, fun _ _ => step_count, fun _ _ => reset_count, fun _ _ => State.Counted.step⟩

end Sys2Proof.Machine

namespace Sys2Proof.Machine

/-! ## The reset event (spec/70_reset_and_hazards.md R190, R203) -/

/-- Settles O2: a reset comes before all else that a step can be. -/
theorem resetEventEmptiesTheBlock : Obligations.ResetEventEmptiesTheBlock :=
  step_of_reset

/-! ## Who writes the port (spec/70_reset_and_hazards.md R202) -/

/-- Settles O55: an idle block waits, answers a reserved opcode or executes a command, and no command writes the port. -/
theorem onlyTransmitsWriteThePort : Obligations.OnlyTransmitsWriteThePort := by
  intro s t hr hs h
  rcases step_cases s t h with ⟨hr', -⟩ | ⟨-, -, rfl⟩ | ⟨-, -, -, -, rfl⟩ | ⟨-, -, -, w, rest, o, -, -, rfl⟩ |
    ⟨-, -, -, w, rest, i, -, hd, hx⟩ | ⟨-, -, p, i, v, hs', -⟩
  · cases hr.symm.trans hr'
  · exact ⟨rfl, rfl, rfl, rfl, rfl⟩
  · exact ⟨rfl, rfl, rfl, rfl, rfl⟩
  · exact ⟨rfl, rfl, rfl, rfl, rfl⟩
  · obtain ⟨u, hu, hclk, hdat, htrace, hearlier, hport, -⟩ :=
      exec_command_next i (s.sampleReset.consume rest) (isCommand_of_decode hd)
    cases hu.symm.trans hx
    exact ⟨htrace, hearlier, hclk, hdat, hport⟩
  · cases hs.symm.trans hs'

/-! ## A transmit that a reset cuts off (spec/70_reset_and_hazards.md R203, R204) -/

theorem State.after_succ_eq_some_iff {s t : State} {n : Nat} :
    s.after (n + 1) = some t ↔ ∃ u, step s = .next u ∧ u.after n = some t := by
  cases h : step s <;> simp [State.after, h]

/-- What every step keeps, several steps keep. -/
theorem after_keeps {P : State → Prop} (hstep : ∀ s t, P s → step s = .next t → P t) {n : Nat} {s t : State} (hs : P s)
    (h : s.after n = some t) : P t := by
  induction n generalizing s with
  | zero =>
    cases h
    exact hs
  | succ n ih =>
    obtain ⟨u, hu, hafter⟩ := State.after_succ_eq_some_iff.mp h
    exact ih (hstep s u hs hu) hafter

/-- An accepted word has no response and does not run, so it gets none (log entry 19). -/
def State.HasCutOffWord (s : State) : Prop :=
  s.responses.length + s.running < s.accepted

/-- A word that was cut off stays so: no step answers it. -/
theorem State.HasCutOffWord.step {s t : State} (hcut : s.HasCutOffWord) (h : Machine.step s = .next t) :
    t.HasCutOffWord := by
  unfold State.HasCutOffWord at hcut ⊢
  cases hr : s.resetNow with
  | false =>
    have hcount := step_count hr h
    omega
  | true =>
    obtain ⟨hresp, hrun, haccepted⟩ := reset_count hr h
    rw [hresp, hrun, haccepted]
    omega

/-- The reset of a busy block cuts off the word that runs. -/
theorem State.Counted.hasCutOffWord_of_reset {s t : State} (hcounted : s.Counted) (hb : s.busy = true)
    (hr : s.resetNow = true) (h : Machine.step s = .next t) : t.HasCutOffWord := by
  obtain ⟨hresp, hrun, haccepted⟩ := reset_count hr h
  have hone : s.running = 1 := if_pos hb
  unfold State.Counted at hcounted
  unfold State.HasCutOffWord
  rw [hresp, hrun, haccepted]
  omega

theorem State.HasCutOffWord.not_over {s : State} (hcut : s.HasCutOffWord) : ¬ s.over := by
  rintro ⟨-, -, hall⟩
  unfold State.HasCutOffWord at hcut
  omega

/-- Settles O60: the reset leaves a word cut off, and so does every later step. -/
theorem runCutOffIsNeverOver : Obligations.RunCutOffIsNeverOver := by
  intro s hcounted hb hr n t h
  obtain ⟨u, hu, hafter⟩ := State.after_succ_eq_some_iff.mp h
  have hcut := hcounted.hasCutOffWord_of_reset hb hr hu
  exact (after_keeps (fun _ _ => State.HasCutOffWord.step) hcut hafter).not_over

/-! ## A run ends (spec/70_reset_and_hazards.md R204)

The work left bounds the steps to the end of a run. Every step of a run whose writes return makes it less. -/

/-- How many port writes the running transmit has left, if they are all done (spec/41_transmit.md R138). -/
def Seq.writesLeft : Seq → Nat
  | .idle => 0
  | .sending p => 888 - p.number

/-- A word waiting is worth 889 steps: its acceptance and the 888 writes of a frame. -/
def State.workLeft (s : State) : Nat :=
  889 * s.cmds.length + s.seq.writesLeft

theorem Seq.writesLeft_sending_pos (p : SeqPos) : 0 < (Seq.sending p).writesLeft :=
  Nat.sub_pos_of_lt (Nat.lt_succ_of_le p.number_le)

/-- With no work left the block is idle and every word has been accepted. -/
theorem State.done_of_workLeft_eq_zero {s : State} (h : s.workLeft = 0) : s.cmds = [] ∧ s.seq = .idle := by
  obtain ⟨hcmds, hwrites⟩ := Nat.add_eq_zero_iff.mp h
  refine ⟨List.length_eq_zero_iff.mp (by omega), ?_⟩
  cases hs : s.seq with
  | idle => rfl
  | sending p => exact absurd (hs ▸ hwrites) (Seq.writesLeft_sending_pos p).ne'

/-- A run goes on: no port write is pending for ever or will be, and the host does not reset the block. -/
structure State.RunsOn (s : State) : Prop where
  inv : s.Inv
  notStuck : s.portStuck = false
  returns : PortOutcome.never ∉ s.port
  noReset : true ∉ s.resetLine

theorem portAnswer_ne_never {s : State} (h : PortOutcome.never ∉ s.port) : s.portAnswer ≠ .never := by
  unfold State.portAnswer
  cases hp : s.port with
  | nil => decide
  | cons a rest => exact fun ha => h (hp ▸ ha ▸ List.mem_cons_self)

/-- A port write that returns uses up its answer, and moves the sequencer on or ends the transmit. -/
theorem sendWrite_returns {p : SeqPos} {v : Byte} {s t : State} (ha : s.portAnswer ≠ .never)
    (h : sendWrite p v s = .next t) : t.portStuck = s.portStuck ∧ t.port = s.port.tail ∧
      (t.seq = .idle ∨ ∃ q, q.number = p.number + 1 ∧ t.seq = .sending q) := by
  rcases sendWrite_cases p v s with ⟨-, hw⟩ | ⟨-, hw⟩ | ⟨hnever, -⟩
  · rcases State.advance_cases ((s.record (p.write v)).setLine (p.write v).line (p.write v).level) p with
      ⟨q, -, hq, hadv⟩ | ⟨-, -, hadv⟩
    · cases (hw.trans hadv).symm.trans h
      exact ⟨by simp, by simp, .inr ⟨q, hq, rfl⟩⟩
    · cases (hw.trans hadv).symm.trans h
      exact ⟨by simp, by simp, .inl rfl⟩
  · cases hw.symm.trans h
    exact ⟨by simp, by simp, .inl rfl⟩
  · exact absurd hnever ha

/-- A command that has been accepted leaves less work than its word did, an XMIT too. -/
theorem exec_command_writesLeft {i : Instr} {s t : State} (hi : i.isCommand = true) (hs : s.seq = .idle)
    (h : exec i s = .next t) : t.seq.writesLeft < 889 := by
  obtain ⟨u, hu, -, -, -, -, -, -, -, -, -, -, hend⟩ := exec_command_next i s hi
  cases hu.symm.trans h
  rcases hend with ⟨hseq, -⟩ | ⟨hseq, -⟩
  · rw [hseq, hs]
    decide
  · rw [hseq]
    decide

/-- A step of a run with work left makes the work less, uses up what it takes of the inputs, and leaves no write pending. -/
theorem State.RunsOn.step_works {s t : State} (hrun : s.RunsOn) (hwork : s.workLeft ≠ 0) (h : step s = .next t) :
    t.portStuck = false ∧ t.port ⊆ s.port ∧ t.resetLine = s.resetLine.tail ∧ t.workLeft < s.workLeft := by
  rcases step_cases s t h with ⟨hr, -⟩ | ⟨-, hp, -⟩ | ⟨-, -, hs, hc, -⟩ | ⟨-, hp, hs, w, rest, o, hc, -, rfl⟩ |
    ⟨-, hp, hs, w, rest, i, hc, hd, hx⟩ | ⟨-, hp, p, i, v, hs, -, -, hw⟩
  · cases (resetNow_of_not_mem s hrun.noReset).symm.trans hr
  · cases hrun.notStuck.symm.trans hp
  · exact absurd (by simp [State.workLeft, hs, hc, Seq.writesLeft]) hwork
  · exact ⟨hp, List.Subset.refl _, rfl, by simp [State.workLeft, hc]⟩
  · have hleft := exec_command_writesLeft (s := s.sampleReset.consume rest) (isCommand_of_decode hd) hs hx
    obtain ⟨u, hu, -, -, -, -, hport, hstuck, hcmds, -, hreset, -⟩ :=
      exec_command_next i (s.sampleReset.consume rest) (isCommand_of_decode hd)
    cases hu.symm.trans hx
    refine ⟨hstuck.trans hp, hport ▸ List.Subset.refl _, hreset, ?_⟩
    simp only [State.workLeft, hcmds, hc, State.consume_cmds, List.length_cons]
    omega
  · obtain ⟨hstuck, hport, hseq⟩ := sendWrite_returns (s := s.sampleReset) (portAnswer_ne_never hrun.returns) hw
    obtain ⟨u, hu, -, hcmds, -, -, hreset, -⟩ := sendWrite_next p v s.sampleReset
    cases hu.symm.trans hw
    refine ⟨hstuck.trans hp, hport ▸ List.tail_subset _, hreset, ?_⟩
    have hleft : t.seq.writesLeft < s.seq.writesLeft := by
      have hpos := Seq.writesLeft_sending_pos p
      rw [hs]
      rcases hseq with hidle | ⟨q, hq, hsending⟩
      · rwa [hidle]
      · rw [hsending]
        simp only [Seq.writesLeft] at hpos ⊢
        omega
    simp only [State.workLeft, hcmds, State.sampleReset_cmds]
    omega

/-- A run with work left makes a step, goes on and has less. -/
theorem State.RunsOn.step {s : State} (hrun : s.RunsOn) (hwork : s.workLeft ≠ 0) :
    ∃ t, Machine.step s = .next t ∧ t.RunsOn ∧ t.workLeft < s.workLeft := by
  obtain ⟨t, ht, hinv⟩ := stepKeepsTheInvariant s hrun.inv
  obtain ⟨hstuck, hport, hreset, hless⟩ := hrun.step_works hwork ht
  exact ⟨t, ht, ⟨hinv, hstuck, fun hm => hrun.returns (hport hm),
    fun hm => hrun.noReset (List.mem_of_mem_tail (hreset ▸ hm))⟩, hless⟩

/-- The words of a run, accepted or not, and the responses given or still to come, are as many in `t` as in `s`. -/
structure State.SameCounts (s t : State) : Prop where
  words : t.accepted + t.cmds.length = s.accepted + s.cmds.length
  responses : t.responses.length + t.running + t.cmds.length = s.responses.length + s.running + s.cmds.length

/-- A step that is no reset accepts a word or not, and counts it. -/
theorem step_sameCounts {s t : State} (hr : s.resetNow = false) (h : step s = .next t) : s.SameCounts t := by
  have hcount := step_count hr h
  have hwords : t.accepted + t.cmds.length = s.accepted + s.cmds.length := by
    rcases wordsAreTakenInOrder s t h with ⟨hcmds, haccepted⟩ | ⟨w, hcmds, haccepted, -⟩
    · rw [hcmds, haccepted]
    · rw [hcmds, haccepted, List.length_cons]
      omega
  exact ⟨hwords, by omega⟩

/-- A run comes to where no work is left, within as many steps as there was work. -/
theorem State.RunsOn.finishes {s : State} (hrun : s.RunsOn) :
    ∃ n t, n ≤ s.workLeft ∧ s.after n = some t ∧ t.workLeft = 0 ∧ s.SameCounts t := by
  induction hw : s.workLeft using Nat.strong_induction_on generalizing s with
  | h work ih =>
    subst hw
    by_cases hzero : s.workLeft = 0
    · exact ⟨0, s, Nat.zero_le _, rfl, hzero, rfl, rfl⟩
    · obtain ⟨u, hu, hrun', hless⟩ := hrun.step hzero
      obtain ⟨n, t, hn, hafter, hdone, hcounts⟩ := ih _ hless hrun' rfl
      have hfirst := step_sameCounts (resetNow_of_not_mem s hrun.noReset) hu
      exact ⟨n + 1, t, by omega, (State.after_succ hu n).trans hafter, hdone,
        hcounts.words.trans hfirst.words, hcounts.responses.trans hfirst.responses⟩

/-- Settles O57: an idle block has 889 steps of work left for each word, and at the end every word is counted as accepted and
as answered. -/
theorem everyRunEndsIfEveryWriteReturns : Obligations.EveryRunEndsIfEveryWriteReturns := by
  intro s hinv hs hport hreset
  have hrun : s.RunsOn := ⟨hinv, (State.inv_iff_of_idle hs).mp hinv, hport, hreset⟩
  obtain ⟨n, t, hn, hafter, hdone, hwords, hresponses⟩ := hrun.finishes
  obtain ⟨hcmds, hseq⟩ := State.done_of_workLeft_eq_zero hdone
  rw [State.workLeft, hs] at hn
  rw [hcmds] at hwords
  rw [hcmds, State.running_of_idle hs, State.running_of_idle hseq] at hresponses
  exact ⟨n, t, hn, hafter, hcmds, hseq, by simp [State.busy, hseq], hwords, hresponses,
    fun hall => ⟨hcmds, hseq, (hresponses.trans (congrArg (· + _) hall)).trans hwords.symm⟩⟩

end Sys2Proof.Machine
